-- ==== Sys2Proof/Word.lean ====
section
/-! DEFINITION. The word types of the engine (00_scope.md R5, R6; 30_encoding.md R80). -/

namespace Sys2Proof

/-- A byte, one lane of a byte-carrying field (R51). -/
abbrev Byte := BitVec 8

/-- A 64-bit word: v0..v3, b, dg, block words (R5). Addition, XOR, OR, AND and shifts are those of
`BitVec 64`, which are the word primitives of R7: modulo 2^64, unsigned, total. -/
abbrev Word := BitVec 64

/-- A command word, `cmd[207:0]` (R80). -/
abbrev CmdWord := BitVec 208

end Sys2Proof
end

