-- ==== Sys2Proof/Syntax.lean ====
section
/-! DEFINITION. The nine commands of the opcode map (30_encoding.md R84), one constructor per row of
opcode_table.json. The operands are the raw field values of R85 to R94, each at the width its rule gives it, so a
value of `Instr` is always the decoded form of a well-formed word (R89). -/

namespace Sys2Proof

/-- A decoded command: a mnemonic with its operand values (R89). -/
inductive Instr where
  /-- `INIT` (R85): `KLEN = N[7:0]`, `LEN = X[63:0]`, `KEY = Y[127:0]`. -/
  | init (klen : Byte) (len : Word) (key : BitVec 128)
  /-- `ABSB` (R86): `BYTES = Y[63:0]`. -/
  | absb (bytes : Word)
  /-- `ABSW` (R87): `M = X[63:0]`. -/
  | absw (m : Word)
  /-- `ABSP` (R88): `FIRST = X[31:0]`, `SECOND = X[63:32]`. -/
  | absp (first second : BitVec 32)
  /-- `TAILB` (R90): `CNT = N[2:0]`, `BYTES = Y[63:0]`, the ignored lanes included. -/
  | tailb (cnt : BitVec 3) (bytes : Word)
  /-- `ORW` (R91): `C = X[63:0]`. -/
  | orw (c : Word)
  /-- `FIN` (R92): no operands. -/
  | fin
  /-- `ROUND` (R93): no operands. -/
  | round
  /-- `CLR` (R94): no operands. -/
  | clr
deriving DecidableEq, Repr

/-- The nine mnemonics of R84. -/
inductive Mnemonic where
  | init | absb | absw | absp | tailb | orw | fin | round | clr
deriving DecidableEq, Repr

/-- The mnemonic of a decoded command. -/
def Instr.mnemonic : Instr → Mnemonic
  | .init _ _ _ => .init
  | .absb _ => .absb
  | .absw _ => .absw
  | .absp _ _ => .absp
  | .tailb _ _ => .tailb
  | .orw _ => .orw
  | .fin => .fin
  | .round => .round
  | .clr => .clr

end Sys2Proof
end

