-- ==== Sys2Proof/WellFormed.lean ====
section
/-! DEFINITION. Well-formed command words (30_encoding.md R89), by the match and mask values of R99. Well-formedness
depends on the word alone. The decoder of Decode.lean is written from the field rules R81 and R85 to R94 instead; that the two
accept the same words is a statement for the provers. -/

namespace Sys2Proof

/-- A row of the table of R99. -/
structure OpcodeRow where
  mnemonic : Mnemonic
  pattern : CmdWord
  mask : CmdWord
deriving DecidableEq, Repr

/-- The nine rows of R99, the digits as printed there. -/
def opcodeTable : List OpcodeRow := [
  ⟨.init, 0x0100000000000000000000000000000000000000000000000000#208, 0xff00000000000000000000000000000000000000000000000000#208⟩,
  ⟨.absb, 0x0200000000000000000000000000000000000000000000000000#208, 0xffffffffffffffffffffffffffffffffffff0000000000000000#208⟩,
  ⟨.absw, 0x0300000000000000000000000000000000000000000000000000#208, 0xffff0000000000000000ffffffffffffffffffffffffffffffff#208⟩,
  ⟨.absp, 0x0400000000000000000000000000000000000000000000000000#208, 0xffff0000000000000000ffffffffffffffffffffffffffffffff#208⟩,
  ⟨.tailb, 0x0500000000000000000000000000000000000000000000000000#208, 0xfff8ffffffffffffffffffffffffffffffff0000000000000000#208⟩,
  ⟨.orw, 0x0600000000000000000000000000000000000000000000000000#208, 0xffff0000000000000000ffffffffffffffffffffffffffffffff#208⟩,
  ⟨.fin, 0x0700000000000000000000000000000000000000000000000000#208, 0xffffffffffffffffffffffffffffffffffffffffffffffffffff#208⟩,
  ⟨.round, 0x0800000000000000000000000000000000000000000000000000#208, 0xffffffffffffffffffffffffffffffffffffffffffffffffffff#208⟩,
  ⟨.clr, 0x0900000000000000000000000000000000000000000000000000#208, 0xffffffffffffffffffffffffffffffffffffffffffffffffffff#208⟩]

/-- The word is a well-formed word of the row's mnemonic: `(w & mask) = match` (R99). -/
def OpcodeRow.accepts (r : OpcodeRow) (w : CmdWord) : Bool := w &&& r.mask == r.pattern

/-- The word is a well-formed command word (R89). -/
def wellFormed (w : CmdWord) : Bool := opcodeTable.any fun r => r.accepts w

end Sys2Proof
end

