-- ==== Sys2Proof/Decode.lean ====
section
/-! DEFINITION. The decoder, total on all 2^208 words and rejecting by name, and the encoder, both from the fields of
30_encoding.md R81 and the operand and MBZ lists of R85 to R94. -/

namespace Sys2Proof

/-! ## Fields of the command word (R81) -/

/-- `OP = cmd[207:200]`. -/
def opField (w : CmdWord) : Byte := w.extractLsb' 200 8

/-- `N = cmd[199:192]`. -/
def nField (w : CmdWord) : Byte := w.extractLsb' 192 8

/-- `X = cmd[191:128]`. -/
def xField (w : CmdWord) : Word := w.extractLsb' 128 64

/-- `Y = cmd[127:0]`. -/
def yField (w : CmdWord) : BitVec 128 := w.extractLsb' 0 128

/-- `Y[127:64]`, lanes 8..15 of `Y`. -/
def yHigh (w : CmdWord) : Word := w.extractLsb' 64 64

/-- `Y[63:0]`, lanes 0..7 of `Y`. -/
def yLow (w : CmdWord) : Word := w.extractLsb' 0 64

/-- `cmd = {OP, N, X, Y}` (R81). -/
def assembleFields (op n : Byte) (x : Word) (y : BitVec 128) : CmdWord := op ++ n ++ x ++ y

/-! ## Decoding -/

/-- Why a word is not well-formed (R89, R95). Each of the three makes the word an illegal command. -/
inductive DecodeError where
  /-- `OP` is `0x00` or `0x0a`..`0xff` (R84). -/
  | reservedOpcode (op : Byte)
  /-- A field that is MBZ for the mnemonic is nonzero (R86 to R94). -/
  | fieldNotZero (m : Mnemonic)
  /-- A `TAILB` with `N >= 8` (R90). -/
  | tailCount (n : Byte)
deriving DecidableEq, Repr

/-- The decoded form of a word (R89): the opcode map of R84 with the fields and MBZ lists of R85 to R94. -/
def decode (w : CmdWord) : Except DecodeError Instr :=
  match (opField w).toNat with
  | 0x01 => .ok (.init (nField w) (xField w) (yField w))
  | 0x02 =>
    if nField w = 0 ∧ xField w = 0 ∧ yHigh w = 0 then .ok (.absb (yLow w)) else .error (.fieldNotZero .absb)
  | 0x03 => if nField w = 0 ∧ yField w = 0 then .ok (.absw (xField w)) else .error (.fieldNotZero .absw)
  | 0x04 =>
    if nField w = 0 ∧ yField w = 0 then .ok (.absp ((xField w).extractLsb' 0 32) ((xField w).extractLsb' 32 32))
    else .error (.fieldNotZero .absp)
  | 0x05 =>
    if 8 ≤ (nField w).toNat then .error (.tailCount (nField w))
    else if xField w = 0 ∧ yHigh w = 0 then .ok (.tailb ((nField w).extractLsb' 0 3) (yLow w))
    else .error (.fieldNotZero .tailb)
  | 0x06 => if nField w = 0 ∧ yField w = 0 then .ok (.orw (xField w)) else .error (.fieldNotZero .orw)
  | 0x07 => if nField w = 0 ∧ xField w = 0 ∧ yField w = 0 then .ok .fin else .error (.fieldNotZero .fin)
  | 0x08 => if nField w = 0 ∧ xField w = 0 ∧ yField w = 0 then .ok .round else .error (.fieldNotZero .round)
  | 0x09 => if nField w = 0 ∧ xField w = 0 ∧ yField w = 0 then .ok .clr else .error (.fieldNotZero .clr)
  | _ => .error (.reservedOpcode (opField w))

/-- The instruction the decoder reads from an instruction whose bits are `w`, numbered as opcode_table.json numbers
them. The hardware takes the 208-bit word whole (R80), so bit `k` of `w` is bit `k` of `cmd`; bits at and above
`nbits` are 0. -/
def decodeTableWord (nbits w : Nat) : Option Instr := (decode (BitVec.ofNat 208 (w % 2 ^ nbits))).toOption

/-! ## Encoding -/

/-- The opcode values of R84. -/
def Mnemonic.opcode : Mnemonic → Byte
  | .init => 0x01
  | .absb => 0x02
  | .absw => 0x03
  | .absp => 0x04
  | .tailb => 0x05
  | .orw => 0x06
  | .fin => 0x07
  | .round => 0x08
  | .clr => 0x09

/-- The word of a decoded command: its operands in their fields, every MBZ bit zero (R81, R85 to R94). -/
def encode : Instr → CmdWord
  | .init klen len key => assembleFields Mnemonic.init.opcode klen len key
  | .absb bytes => assembleFields Mnemonic.absb.opcode 0 0 (bytes.setWidth 128)
  | .absw m => assembleFields Mnemonic.absw.opcode 0 m 0
  | .absp first second => assembleFields Mnemonic.absp.opcode 0 (second ++ first) 0
  | .tailb cnt bytes => assembleFields Mnemonic.tailb.opcode (cnt.setWidth 8) 0 (bytes.setWidth 128)
  | .orw c => assembleFields Mnemonic.orw.opcode 0 c 0
  | .fin => assembleFields Mnemonic.fin.opcode 0 0 0
  | .round => assembleFields Mnemonic.round.opcode 0 0 0
  | .clr => assembleFields Mnemonic.clr.opcode 0 0 0

end Sys2Proof
end

