-- ==== Sys2Proof/Config.lean ====
section
/-! DEFINITION. What an implementation fixes, and the one free value of the host's driver: the open parameter `LAT(op)` (00_scope.md R5, 92_eei_decisions.md D16).
The other open parameter, `RST_KIND` (D15), has no definition: a `PortEvent.reset` stands for an active `rst` of any
polarity and synchrony (log 4). Everything else in R5 is fixed by the spec and is no argument of the model. -/

namespace Sys2Proof

/-- `LAT(op)` for each of the nine opcodes and for a refused word, every entry holding `LAT - 1`: the number of rising
edges after the accepting one at which `cmd_ready` is still low. So `LAT >= 1` holds by construction, and the latency
depends on no operand, key or state value (R273). DESIGN CHOICE (log 2): the parameter is plain data that the state
carries and no step writes. -/
structure Latency where
  init : Nat
  absb : Nat
  absw : Nat
  absp : Nat
  tailb : Nat
  orw : Nat
  fin : Nat
  round : Nat
  clr : Nat
  /-- A word that is refused (R273): an ill-formed word, or any word but `CLR` while the engine is frozen. -/
  refused : Nat
deriving DecidableEq, Repr

/-- The entry of a mnemonic. -/
def Latency.extra (l : Latency) : Mnemonic → Nat
  | .init => l.init
  | .absb => l.absb
  | .absw => l.absw
  | .absp => l.absp
  | .tailb => l.tailb
  | .orw => l.orw
  | .fin => l.fin
  | .round => l.round
  | .clr => l.clr

/-- Every command in one clock cycle: the least latency R5 allows. -/
def Latency.least : Latency :=
  { init := 0, absb := 0, absw := 0, absp := 0, tailb := 0, orw := 0, fin := 0, round := 0, clr := 0, refused := 0 }

/-- FREE VALUE, of the host's driver and not of the engine: which of the 255 values of `KLEN` other than 16 a driver puts in
the leading `INIT` for a key of 256 bytes or more, whose length 8 bits cannot hold (45_sequences.md R200; log 9). It has
no body, so nothing can be proved of it but that it is one of the 255. -/
opaque Config.longKeyChoice : List Byte → Fin 255

end Sys2Proof
end

