-- ==== Sys2Proof/Machine/State.lean ====
section
/-! DEFINITION. The state of the engine as plain data, its stops and its reset value (10_state.md R20 to R34,
20_memory.md R57, R72, 70_reset_and_hazards.md R260). -/

namespace Sys2Proof.Machine

/-- The permutation words v0..v3 (R21). -/
structure Perm where
  v0 : Word
  v1 : Word
  v2 : Word
  v3 : Word
deriving DecidableEq, Repr

/-- The phase `ph` (R26): all four values of the 2-bit register are named. -/
inductive Phase where
  /-- 0: no computation in progress. -/
  | idle
  /-- 1: an `INIT` has been executed. -/
  | absorb
  /-- 2: a `TAILB` or `ORW` has been executed. -/
  | tail
  /-- 3: a `FIN` has been executed. -/
  | done
deriving DecidableEq, Repr

/-- The sticky error code `err` (R27): all four values of the 2-bit register are named. -/
inductive ErrCode where
  /-- 0: no error. -/
  | ok
  /-- 1: `IllegalCommand` (R221). -/
  | illegal
  /-- 2: `SequenceError` (R222). -/
  | sequence
  /-- 3: `InvalidKeyLength` (R223). -/
  | keylen
deriving DecidableEq, Repr

/-- The whole architectural state of the engine: the tuple `(v0, v1, v2, v3, b, dg, ph, err)` of R20 and nothing
else. -/
structure Engine where
  v : Perm
  b : Word
  dg : Word
  ph : Phase
  err : ErrCode
deriving DecidableEq, Repr

/-- The engine's state after reset and after `CLR` (R34, R190, R260). -/
def Engine.zero : Engine := { v := ⟨0, 0, 0, 0⟩, b := 0, dg := 0, ph := .idle, err := .ok }

/-- An event at the engine's input pins (R57). -/
inductive PortEvent where
  /-- `rst` is active (R260), of any polarity, at an edge or between edges (log 4). -/
  | reset
  /-- A rising edge of `clk` with `rst` inactive, at which `cmd_valid` and `cmd` have the given values (R72). -/
  | edge (valid : Bool) (cmd : CmdWord)
deriving DecidableEq, Repr

/-- The state a step works on: the architectural state, what the handshake of R72 needs, and the events still to come. -/
structure State where
  /-- The architectural state (R20). -/
  eng : Engine
  /-- How many more rising edges `cmd_ready` stays low (R72); 0 is `cmd_ready = 1`. -/
  busy : Nat
  /-- The open parameter `LAT(op)` (R5). The MODEL's own field; no step writes it (log 2). -/
  lat : Latency
  /-- The events at the input pins, the next one first. The MODEL's own field (log 1). -/
  port : List PortEvent
deriving DecidableEq, Repr

/-- The reasons the machine stops with a fault: none. The engine never halts (R275); its three errors are codes in
`err` and leave a next state (R220, R226). DEDUCED, safe (log 5). -/
inductive Fault where
deriving DecidableEq, Repr

/-- The reasons a step is refused. -/
inductive Refusal where
  /-- Raised by `exec` for an instruction without a meaning; safe. No arm of `exec` raises it: every instruction of the opcode
  table has its meaning. -/
  | notModelled (mnemonic : String)
deriving DecidableEq, Repr

/-- The machine right after reset (R34, R260): the engine zero, `cmd_ready = 1`. The two fields of the model's own are
DESIGN CHOICE: nothing is on the port (log 1), every latency is the least allowed (log 2). -/
def State.reset : State := { eng := Engine.zero, busy := 0, lat := Latency.least, port := [] }

end Sys2Proof.Machine
end

