-- ==== Sys2Proof/Machine/Ops.lean ====
section
/-! DEFINITION. The shared operations: byte and word conversions (00_scope.md R7, R8), `SipRound` (40_sipround.md
R120), `Compress` (42_absorb.md R150), the postamble's word computation (44_final.md R185), error entry and the way back
(60_exceptions.md R226 to R228), and the common checks (30_encoding.md R97). -/

namespace Sys2Proof.Machine

/-! ## Words and bytes -/

/-- `rotl64(a, n)` (R7), for 1 <= n <= 63. -/
def rotl64 (a : Word) (n : Nat) : Word := (a <<< n) ||| (a >>> (64 - n))

/-- `rotr64(x, n) = rotl64(x, 64 - n)` (R123), for 1 <= n <= 63. -/
def rotr64 (a : Word) (n : Nat) : Word := rotl64 a (64 - n)

/-- The number `sum over i of B[i] * 2^(8*i)` of a byte string, `B[0]` first (R8). -/
def leNat : List Byte → Nat
  | [] => 0
  | x :: xs => x.toNat + 256 * leNat xs

/-- A lane field of `n` bits carrying a byte string: byte i in lane i, bits `8*i+7 : 8*i` (R51). Lanes past the string
are zero, lanes past the field are dropped. -/
def laneField (n : Nat) (bs : List Byte) : BitVec n := BitVec.ofNat n (leNat bs)

/-- `lane(F, i)` (R8, R51). -/
def lane {n : Nat} (f : BitVec n) (i : Nat) : Byte := f.extractLsb' (8 * i) 8

/-- `le64(B)` (R8): `B[0]` is bits 7:0. -/
def le64 (bs : List Byte) : Word := laneField 64 bs

/-- `be64(B)` of an 8-byte string (R8): `B[0]` is bits 63:56. -/
def be64 (bs : List Byte) : Word := laneField 64 bs.reverse

/-- `le64_bytes(w)` (R8): `B[i] = w[8*i+7 : 8*i]`. -/
def le64Bytes (w : Word) : List Byte := (List.range 8).map fun i => lane w i

/-- `be64_bytes(w)` (R8): `B[i] = w[63-8*i : 56-8*i]`. -/
def be64Bytes (w : Word) : List Byte := (List.range 8).map fun i => lane w (7 - i)

/-- The 4-byte little-endian encoding of a 32-bit integer (R157). -/
def le32Bytes (w : BitVec 32) : List Byte := (List.range 4).map fun i => lane w i

/-- `bswap64(w) = le64(be64_bytes(w))` (R8). -/
def bswap64 (w : Word) : Word := le64 (be64Bytes w)

/-! ## The round function -/

/-- `SipRound()` (R120): the fourteen steps in the order the rule lists them. -/
def sipRound (p : Perm) : Perm :=
  let v0 := p.v0 + p.v1
  let v1 := rotl64 p.v1 13
  let v1 := v1 ^^^ v0
  let v0 := rotl64 v0 32
  let v2 := p.v2 + p.v3
  let v3 := rotl64 p.v3 16
  let v3 := v3 ^^^ v2
  let v0 := v0 + v3
  let v3 := rotl64 v3 21
  let v3 := v3 ^^^ v0
  let v2 := v2 + v1
  let v1 := rotl64 v1 17
  let v1 := v1 ^^^ v2
  let v2 := rotl64 v2 32
  { v0 := v0, v1 := v1, v2 := v2, v3 := v3 }

/-- The inverse of `SipRound` as R123 lists it. The engine has no command that computes it. -/
def sipRoundInverse (p : Perm) : Perm :=
  let v2 := rotr64 p.v2 32
  let v1 := p.v1 ^^^ v2
  let v1 := rotr64 v1 17
  let v2 := v2 - v1
  let v3 := p.v3 ^^^ p.v0
  let v3 := rotr64 v3 21
  let v0 := p.v0 - v3
  let v3 := v3 ^^^ v2
  let v3 := rotr64 v3 16
  let v2 := v2 - v3
  let v0 := rotr64 v0 32
  let v1 := v1 ^^^ v0
  let v1 := rotr64 v1 13
  let v0 := v0 - v1
  { v0 := v0, v1 := v1, v2 := v2, v3 := v3 }

/-- `v3 <- v3 ^ m`. -/
def xorV3 (m : Word) (p : Perm) : Perm := { p with v3 := p.v3 ^^^ m }

/-- `v0 <- v0 ^ m`. -/
def xorV0 (m : Word) (p : Perm) : Perm := { p with v0 := p.v0 ^^^ m }

/-- `v2 <- v2 ^ m`. -/
def xorV2 (m : Word) (p : Perm) : Perm := { p with v2 := p.v2 ^^^ m }

/-- `Compress(m)` (R150): the 2 rounds per absorbed block (R124). -/
def compress (m : Word) (p : Perm) : Perm := xorV0 m (sipRound (sipRound (xorV3 m p)))

/-- The inverse of `Compress(m)` (R158). The engine has no command that computes it. -/
def compressInverse (m : Word) (p : Perm) : Perm := xorV3 m (sipRoundInverse (sipRoundInverse (xorV0 m p)))

/-- The four rounds that follow the `0xff` injection (R185, R186). -/
def fourRounds (p : Perm) : Perm := sipRound (sipRound (sipRound (sipRound p)))

/-- The permutation words after the postamble with accumulator `b` (R185): the accumulator absorbed as the last block
(R186), `0xff` into v2, four rounds. -/
def finalPerm (b : Word) (p : Perm) : Perm := fourRounds (xorV2 0xff (compress b p))

/-- `v0 ^ v1 ^ v2 ^ v3` (R25, R185). -/
def digestWord (p : Perm) : Word := p.v0 ^^^ p.v1 ^^^ p.v2 ^^^ p.v3

/-! ## The preamble's constants -/

/-- The permutation words the preamble makes from the two key words (R140, R141): k0 into the even words, k1 into the
odd words. The constants are the spec's, not audited against the original code (log 12). -/
def initialPerm (k0 k1 : Word) : Perm :=
  { v0 := 0x736f6d6570736575 ^^^ k0
    v1 := 0x646f72616e646f6d ^^^ k1
    v2 := 0x6c7967656e657261 ^^^ k0
    v3 := 0x7465646279746573 ^^^ k1 }

/-! ## Errors, the frozen condition, the common checks -/

/-- The outcome of a step of this machine. -/
abbrev Result := Host.Outcome State Fault Refusal

/-- Error entry with a code (R226): `err <- c` and nothing else. There is no vector and no saved register. -/
def raise (c : ErrCode) (s : State) : Result := .next { s with eng := { s.eng with err := c } }

/-- The way back from an error (R228), which is the body of `CLR` (R190): every state element to its reset value. -/
def discard (s : State) : Result := .next { s with eng := Engine.zero }

/-- A change of the architectural state, everything else kept. -/
def onEngine (f : Engine → Engine) (s : State) : Result := .next { s with eng := f s.eng }

/-- Step 1 of R97: while `err != 0` a command is consumed and ignored (R227). -/
def unlessFrozen (act : State → Result) (s : State) : Result :=
  if s.eng.err = .ok then act s else .next s

/-- Step 3 of R97: the command is legal in the given phases and raises `SequenceError` in the others (R96, R222). -/
def inPhase (legal : List Phase) (act : State → Result) (s : State) : Result :=
  if s.eng.ph ∈ legal then act s else raise .sequence s

/-- What an accepted word does that is not well-formed (R97 steps 1 and 2, R221): ignored while frozen,
`IllegalCommand` otherwise, in every phase. -/
def illegalWord (s : State) : Result := unlessFrozen (raise .illegal) s

end Sys2Proof.Machine
end

