-- ==== Sys2Proof/Machine/Operands.lean ====
section
/-! DEFINITION. Operand assembly, all the forms of 30_encoding.md R98. -/

namespace Sys2Proof.Machine

/-- `k0 = bswap64(Y[63:0])`, key bytes 0..7 big-endian (20_memory.md R52). -/
def keyWord0 (key : BitVec 128) : Word := bswap64 (key.extractLsb' 0 64)

/-- `k1 = bswap64(Y[127:64])`, key bytes 8..15 big-endian (R52). -/
def keyWord1 (key : BitVec 128) : Word := bswap64 (key.extractLsb' 64 64)

/-- `b` after the preamble: `LEN << 56`, a 64-bit shift (41_init.md R142). -/
def lengthTag (len : Word) : Word := len <<< 56

/-- The block word of `ABSB`: the chunk bytes little-endian, which on lanes is the identity (R53, R154). -/
def blockOfBytes (bytes : Word) : Word := bytes

/-- The block word of `ABSW`: the integer itself (R59, R154). -/
def blockOfInteger (m : Word) : Word := m

/-- The block word of `ABSP`: `(zext_64(SECOND) << 32) | zext_64(FIRST)` (R153, R154). -/
def blockOfPair (first second : BitVec 32) : Word := (second.setWidth 64 <<< 32) ||| first.setWidth 64

/-- The packed trailing bytes of `TAILB`: `t = Y[63:0] & (2^(8*CNT) - 1)`, the first trailing byte lowest (R54, R170).
The one place that fixes the trailing-byte order (90_conflicts.md C1, 93_implementation_defined.md U14, log 8). -/
def tailWord (cnt : BitVec 3) (bytes : Word) : Word := bytes &&& ((1 <<< (8 * cnt.toNat)) - 1)

/-- The operand of `ORW`: all 64 bits, unmasked (R175, R176). -/
def orOperand (c : Word) : Word := c

end Sys2Proof.Machine
end

