-- ==== Sys2Proof/Machine/Absorb.lean ====
section
/-! DEFINITION. Absorbing full blocks: `ABSB`, `ABSW`, `ABSP` (42_absorb.md R150 to R158). -/

namespace Sys2Proof.Machine

/-- The one `Compress` datapath behind the path selection of R154; legal in `ABSORB` only. -/
def absorbBlock (m : Word) (s : State) : Result :=
  unlessFrozen (inPhase [.absorb] (onEngine fun e => { e with v := compress m e.v })) s

/-- `ABSB` (R151): absorb one full 8-byte chunk. -/
def execAbsb (bytes : Word) (s : State) : Result := absorbBlock (blockOfBytes bytes) s

/-- `ABSW` (R152): absorb one 64-bit integer. -/
def execAbsw (m : Word) (s : State) : Result := absorbBlock (blockOfInteger m) s

/-- `ABSP` (R153): absorb two 32-bit integers packed into one block. -/
def execAbsp (first second : BitVec 32) (s : State) : Result := absorbBlock (blockOfPair first second) s

end Sys2Proof.Machine
end

