-- ==== Sys2Proof/Machine/Final.lean ====
section
/-! DEFINITION. Finalisation and discard: `FIN`, `CLR` (44_final.md R185 to R190). -/

namespace Sys2Proof.Machine

/-- The state the postamble leaves (R185): v0..v3 after the sixth round, the digest latched, `ph = DONE`; b unchanged. -/
def finEngine (e : Engine) : Engine :=
  { e with v := finalPerm e.b e.v, dg := digestWord (finalPerm e.b e.v), ph := .done }

/-- `FIN` (R185): legal in `ABSORB` and `TAIL`. -/
def execFin (s : State) : Result := unlessFrozen (inPhase [.absorb, .tail] (onEngine finEngine)) s

/-- `CLR` (R190): legal in every phase, and obeyed while the engine is frozen. -/
def execClr (s : State) : Result := discard s

end Sys2Proof.Machine
end

