-- ==== Sys2Proof/Machine/Init.lean ====
section
/-! DEFINITION. State initialisation: `INIT` (41_init.md R140 to R146). -/

namespace Sys2Proof.Machine

/-- The state the preamble writes (R140); it reads nothing of the old state but keeps `err`. -/
def initEngine (len : Word) (key : BitVec 128) (e : Engine) : Engine :=
  { v := initialPerm (keyWord0 key) (keyWord1 key), b := lengthTag len, dg := 0, ph := .absorb, err := e.err }

/-- `INIT` (R140): legal in every phase; `InvalidKeyLength` unless `KLEN = 16` (R143), before any other change. -/
def execInit (klen : Byte) (len : Word) (key : BitVec 128) (s : State) : Result :=
  unlessFrozen (if klen = 16 then onEngine (initEngine len key) else raise .keylen) s

end Sys2Proof.Machine
end

