-- ==== Sys2Proof/Machine/Round.lean ====
section
/-! DEFINITION. The round family: `ROUND` (40_sipround.md R121). -/

namespace Sys2Proof.Machine

/-- `ROUND` (R121): one `SipRound` on v0..v3; legal in `ABSORB` only. -/
def execRound (s : State) : Result :=
  unlessFrozen (inPhase [.absorb] (onEngine fun e => { e with v := sipRound e.v, ph := .absorb })) s

end Sys2Proof.Machine
end

