-- ==== Sys2Proof/Machine/Tail.lean ====
section
/-! DEFINITION. The partial last block: `TAILB`, `ORW` (43_tail.md R170 to R178). -/

namespace Sys2Proof.Machine

/-- `b <- b | t; ph <- TAIL`, no round run; legal in `ABSORB` only. -/
def foldIntoB (t : Word) (s : State) : Result :=
  unlessFrozen (inPhase [.absorb] (onEngine fun e => { e with b := e.b ||| t, ph := .tail })) s

/-- `TAILB` (R170): fold `CNT` trailing bytes into b. -/
def execTailb (cnt : BitVec 3) (bytes : Word) (s : State) : Result := foldIntoB (tailWord cnt bytes) s

/-- `ORW` (R175): OR a 64-bit integer into b, all bits, no check (R176). -/
def execOrw (c : Word) (s : State) : Result := foldIntoB (orOperand c) s

end Sys2Proof.Machine
end

