-- ==== Sys2Proof/Machine/Dispatch.lean ====
section
/-! DEFINITION. One arm per command of the opcode map. -/

namespace Sys2Proof.Machine

def exec (i : Instr) (s : State) : Host.Outcome State Fault Refusal :=
  match i with
  | .init klen len key => Sys2Proof.Machine.execInit klen len key s
  | .absb bytes => Sys2Proof.Machine.execAbsb bytes s
  | .absw m => Sys2Proof.Machine.execAbsw m s
  | .absp first second => Sys2Proof.Machine.execAbsp first second s
  | .tailb cnt bytes => Sys2Proof.Machine.execTailb cnt bytes s
  | .orw c => Sys2Proof.Machine.execOrw c s
  | .fin => Sys2Proof.Machine.execFin s
  | .round => Sys2Proof.Machine.execRound s
  | .clr => Sys2Proof.Machine.execClr s

end Sys2Proof.Machine
end

