-- ==== Sys2Proof/Machine/Flags.lean ====
section
/-! DEFINITION. The outputs of 20_memory.md R57, pure functions of the state. The engine has no condition codes
(10_state.md R29); these are all its flags. -/

namespace Sys2Proof.Machine

/-- The 2-bit code of a phase (R26). -/
def phaseCode : Phase → BitVec 2
  | .idle => 0
  | .absorb => 1
  | .tail => 2
  | .done => 3

/-- The 2-bit code of an error (R27). -/
def errCode : ErrCode → BitVec 2
  | .ok => 0
  | .illegal => 1
  | .sequence => 2
  | .keylen => 3

/-- `dvalid` (R29): `ph = DONE` and `err = 0`. -/
def dvalid (e : Engine) : Bool := e.ph == .done && e.err == .ok

/-- The `fault` line (R29, R230): `err != 0`. -/
def faultLine (e : Engine) : Bool := e.err != .ok

/-- `STATUS = {err, ph}` (R28). -/
def statusWord (e : Engine) : BitVec 4 := errCode e.err ++ phaseCode e.ph

/-- `dout` (R56): the digest with byte i in lane i while `dvalid`, else 0. -/
def dout (e : Engine) : Word := if dvalid e then bswap64 e.dg else 0

/-- The four outputs that are functions of the architectural state (R57). -/
structure Outputs where
  dout : Word
  dvalid : Bool
  status : BitVec 4
  fault : Bool
deriving DecidableEq, Repr

/-- The outputs of an architectural state (R57, R67). -/
def outputs (e : Engine) : Outputs :=
  { dout := dout e, dvalid := dvalid e, status := statusWord e, fault := faultLine e }

/-- `cmd_ready` (R72). -/
def cmdReady (s : State) : Bool := s.busy == 0

/-- What a host may sample (R72, R270): the outputs while `cmd_ready = 1`; while a command is in progress the spec gives the
outputs no value, and the model gives none (93_implementation_defined.md U5, log 3). -/
def sample (s : State) : Option Outputs := if cmdReady s then some (outputs s.eng) else none

/-- The 8 digest bytes a host reads from the lanes of `dout` (R55, R189), while `dvalid` is 1. -/
def readDigest (o : Outputs) : Option (List Byte) := if o.dvalid then some (le64Bytes o.dout) else none

end Sys2Proof.Machine
end

