-- ==== Sys2Proof/Machine/Port.lean ====
section
/-! DEFINITION. The command port: acceptance, the handshake and reset (20_memory.md R60, R72; 70_reset_and_hazards.md
R260, R272, R273, R275). -/

namespace Sys2Proof.Machine

/-- What an accepted word does (R60, R97): the step function `State -> CommandWord -> State` of the spec. The frozen
check is inside the meanings and `illegalWord`, so decoding first makes no difference (log 7). -/
def acceptWord (w : CmdWord) (s : State) : Result :=
  match decode w with
  | .ok i => exec i s
  | .error _ => illegalWord s

/-- How many rising edges after acceptance `cmd_ready` stays low (R72, R273): `LAT - 1` of the opcode executed, or of a
refused word. Which entry a word takes that raises an error other than `IllegalCommand` is a DESIGN CHOICE (log 2). -/
def latencyOf (w : CmdWord) (s : State) : Nat :=
  match decode w with
  | .ok i => if s.eng.err = .ok ∨ i = .clr then s.lat.extra i.mnemonic else s.lat.refused
  | .error _ => s.lat.refused

/-- A rising edge with `rst` inactive (R72): a word is accepted when `cmd_valid = 1` and `cmd_ready = 1`; a word
presented while `cmd_ready = 0` has no effect. The whole effect of an accepted word happens here, as one step (R60). -/
def takeEdge (valid : Bool) (w : CmdWord) (s : State) : Result :=
  if s.busy = 0 then
    if valid then acceptWord w { s with busy := latencyOf w s } else .next s
  else .next { s with busy := s.busy - 1 }

/-- An active `rst` (R260): every state element to its reset value, a command in progress abandoned, `cmd_ready = 1`
afterwards. -/
def applyReset (s : State) : State := { s with eng := Engine.zero, busy := 0 }

/-- The next event at the input pins. With no event to come the engine holds its state (60_exceptions.md R237). -/
def portStep (s : State) : Result :=
  match s.port with
  | [] => .next s
  | .reset :: rest => .next (applyReset { s with port := rest })
  | .edge valid w :: rest => takeEdge valid w { s with port := rest }

/-- The host presents a word to a ready engine: the next event is a rising edge with `cmd_valid = 1` and the word. -/
def presentWord (w : CmdWord) (s : State) : State := { s with busy := 0, port := .edge true w :: s.port }

/-- The fold of the spec's step function over a list of accepted words (R275). -/
def runWords : List CmdWord → State → Result
  | [], s => .next s
  | w :: ws, s =>
    match acceptWord w s with
    | .next t => runWords ws t
    | .fault r => .fault r
    | .refused r => .refused r

end Sys2Proof.Machine
end

