-- ==== Sys2Proof/Machine/Step.lean ====
section
/-! DEFINITION. One step of the machine: the next event at the input pins. -/

namespace Sys2Proof.Machine

/-- One step: the next event of `port` (log 1). -/
def step (s : State) : Host.Outcome State Fault Refusal := portStep s

/-- `s` with the word whose bits are `w` presented to the engine at the next rising edge, the engine ready (log 1). -/
def State.withFetchWord (s : State) (nbits w : Nat) : State := presentWord (BitVec.ofNat 208 (w % 2 ^ nbits)) s

end Sys2Proof.Machine
end

