-- ==== Sys2Proof/Machine/Sequences.lean ====
section
/-! DEFINITION. The seven entry points as command sequences (45_sequences.md R200 to R208; the pseudo-instructions of
30_encoding.md R101), and the driver that issues them and returns a value (R207). They are what a host does; the engine
does not know them. A `none` is the driver's refusal of an operand that R205 or R206 makes it refuse: it issues no command. -/

namespace Sys2Proof.Machine

/-- `KLEN` of the leading `INIT`: the key's true length (R200). A length of 256 or more does not fit in 8 bits; R200 and R207
fix that the engine rejects such a key, so `KLEN` is then some value other than 16, a free one (log 9). -/
def klenFor (key : List Byte) : Byte :=
  if key.length < 256 then BitVec.ofNat 8 key.length
  else
    let k := (Config.longKeyChoice key).val
    BitVec.ofNat 8 (if k < 16 then k else k + 1)

/-- The leading `INIT`: the key's length, the total input length, the first 16 bytes of the key zero-padded (R200). -/
def initFor (key : List Byte) (len : Nat) : Instr :=
  .init (klenFor key) (BitVec.ofNat 64 len) (laneField 128 (key.take 16))

/-- A whole computation: the leading `INIT`, the commands that absorb the input, `FIN`. A key of any length may be passed. -/
def computation (key : List Byte) (len : Nat) (absorption : List Instr) : List Instr :=
  initFor key len :: (absorption ++ [.fin])

/-- The first `q` full 8-byte chunks of a byte string, in input order from offset 0 (R63, R155, R200). -/
def chunkCommands : Nat → List Byte → List Instr
  | 0, _ => []
  | q + 1, bs => .absb (laneField 64 (bs.take 8)) :: chunkCommands q (bs.drop 8)

/-- The `TAILB` of the trailing bytes, none when there are none (R200). -/
def tailCommands (bs : List Byte) : List Instr :=
  if bs.length = 0 then [] else [.tailb (BitVec.ofNat 3 bs.length) (laneField 64 bs)]

/-- The commands that absorb a byte string: the full chunks, then the trailing bytes (R200). -/
def byteCommands (data : List Byte) : List Instr :=
  chunkCommands (data.length / 8) data ++ tailCommands (data.drop (8 * (data.length / 8)))

/-- `digest(key, bytes)` (R200). -/
def digestProgram (key data : List Byte) : List Instr := computation key data.length (byteCommands data)

/-- A 64-bit integer argument, reduced modulo 2^64 by the driver (R208). -/
def wordCommand (a : Nat) : Instr := .absw (BitVec.ofNat 64 a)

/-- `digest_1x64(key, a)` (R201). -/
def digest1x64Program (key : List Byte) (a : Nat) : List Instr := computation key 8 [wordCommand a]

/-- `digest_2x64(key, a, b)` (R202). -/
def digest2x64Program (key : List Byte) (a b : Nat) : List Instr :=
  computation key 16 [wordCommand a, wordCommand b]

/-- `digest_3x64(key, a, b, c)` (R203). -/
def digest3x64Program (key : List Byte) (a b c : Nat) : List Instr :=
  computation key 24 [wordCommand a, wordCommand b, wordCommand c]

/-- `digest_4x64(key, a, b, c, d)` (R204). -/
def digest4x64Program (key : List Byte) (a b c d : Nat) : List Instr :=
  computation key 32 [wordCommand a, wordCommand b, wordCommand c, wordCommand d]

/-- `digest_1x32(key, a)` (R205): `a` is passed unmasked, refused only when it cannot be encoded; the optional hardening
is not taken (log 10). -/
def digest1x32Program (key : List Byte) (a : Nat) : Option (List Instr) :=
  if a < 2 ^ 64 then some (computation key 4 [.orw (BitVec.ofNat 64 a)]) else none

/-- `digest_3x32(key, a, b, c)` (R206): the driver refuses `a` or `b` of 2^32 or more; `c` as in R205. -/
def digest3x32Program (key : List Byte) (a b c : Nat) : Option (List Instr) :=
  if a < 2 ^ 32 ∧ b < 2 ^ 32 ∧ c < 2 ^ 64 then
    some (computation key 12 [.absp (BitVec.ofNat 32 a) (BitVec.ofNat 32 b), .orw (BitVec.ofNat 64 c)])
  else none

/-- The accepted words of a sequence of commands. -/
def programWords (is : List Instr) : List CmdWord := is.map encode

/-- What an entry point's driver returns (R207). -/
inductive DriverResult where
  /-- The 8 digest bytes read from `dout` (R189). -/
  | digest (bytes : List Byte)
  /-- `InvalidKeyLength`, read from `STATUS.ERR` (R207). -/
  | invalidKeyLength
  /-- The outputs show neither a digest nor `KEYLEN`. After an entry point issued to an unfrozen engine this does not occur;
  an engine that was already frozen with `ILLEGAL` or `SEQUENCE` gives it (DESIGN CHOICE, log 14). -/
  | noResult
deriving DecidableEq, Repr

/-- The driver reads the outputs after the last command (R207): the digest while `dvalid` is 1, else the error in
`STATUS.ERR`. R207 says what the value is when the engine was not frozen at the start. For an engine already frozen then it
gives none, and the driver here does not look before it starts, so a latched `KEYLEN` reads as `InvalidKeyLength` whatever
the key is, and another latched code as `noResult`: DESIGN CHOICE (log 14). -/
def driverResult (o : Outputs) : DriverResult :=
  match readDigest o with
  | some bytes => .digest bytes
  | none => if o.status.extractLsb' 2 2 = errCode .keylen then .invalidKeyLength else .noResult

/-- The commands a driver issues once it has read the outputs (R207): `CLR` after `InvalidKeyLength`; after a digest `CLR` if
the driver chooses to discard the state. After `noResult`, for which R207 has no case, none: DESIGN CHOICE (log 14). -/
def followUp (discardDigest : Bool) : DriverResult → List Instr
  | .digest _ => if discardDigest then [.clr] else []
  | .invalidKeyLength => [.clr]
  | .noResult => []

/-- A whole call of an entry point (R207): the sequence, the driver's reading of the outputs, what it issues then. The result
is the function's value with the state it leaves; `none` only for a run that stops, which no run does (log 5). -/
def callEntry (discardDigest : Bool) (program : List Instr) (s : State) : Option (DriverResult × State) :=
  match runWords (programWords program) s with
  | .next t =>
    let value := driverResult (outputs t.eng)
    match runWords (programWords (followUp discardDigest value)) t with
    | .next u => some (value, u)
    | _ => none
  | _ => none

/-- The lowercase hexadecimal digit of a 4-bit value. -/
def hexDigit (d : BitVec 4) : Char :=
  if d.toNat < 10 then Char.ofNat (48 + d.toNat) else Char.ofNat (87 + d.toNat)

/-- The hex-string view of a digest (20_memory.md R58): two lowercase digits a byte, byte 0 first. Host software. -/
def hexView (bytes : List Byte) : List Char :=
  bytes.flatMap fun x => [hexDigit (x.extractLsb' 4 4), hexDigit (x.extractLsb' 0 4)]

end Sys2Proof.Machine
end

