-- ==== Sys2Proof/Machine/Assembler.lean ====
section
/-! DEFINITION. The written forms of a command: 52 hexadecimal digits (30_encoding.md R82) and the assembler syntax
(R100). Text is a list of characters. `none` is the assembler's refusal. What R100 does not say about the text is
log 11. -/

namespace Sys2Proof.Machine

/-! ## The 52 digits of a word (R82) -/

/-- A command word as 52 hexadecimal digits, most significant first (R82). -/
def writtenWord (w : CmdWord) : List Char := (List.range 52).map fun k => hexDigit (w.extractLsb' (4 * (51 - k)) 4)

/-- The value of a hexadecimal digit, of either case. -/
def hexValue (c : Char) : Option Nat :=
  let n := c.toNat
  if 48 ≤ n ∧ n ≤ 57 then some (n - 48)
  else if 97 ≤ n ∧ n ≤ 102 then some (n - 87)
  else if 65 ≤ n ∧ n ≤ 70 then some (n - 55)
  else none

/-- The value of a decimal digit. -/
def decimalValue (c : Char) : Option Nat :=
  let n := c.toNat
  if 48 ≤ n ∧ n ≤ 57 then some (n - 48) else none

/-- The number a string of digits writes, most significant first, after the digits already read. -/
def readDigits (value : Char → Option Nat) (base : Nat) : Nat → List Char → Option Nat
  | acc, [] => some acc
  | acc, c :: cs =>
    match value c with
    | some d => readDigits value base (base * acc + d) cs
    | none => none

/-- The word written by 52 hexadecimal digits (R82). -/
def readWord (cs : List Char) : Option CmdWord :=
  if cs.length = 52 then (readDigits hexValue 16 0 cs).map (BitVec.ofNat 208) else none

/-! ## Commands as the assembler takes them (R100) -/

/-- One line of R100, its numbers and byte strings as written, before the range checks. -/
inductive AsmCommand where
  | init (klen len : Nat) (key : List Byte)
  | absb (chunk : List Byte)
  | absw (m : Nat)
  | absp (first second : Nat)
  | tailb (n : Nat) (bytes : List Byte)
  | orw (c : Nat)
  | fin
  | round
  | clr
  /-- `.word` and 52 hexadecimal digits: a raw word. -/
  | word (w : CmdWord)
deriving DecidableEq, Repr

/-- The table of R100: the word of a line, `none` for an operand outside the stated range. A key string shorter than 16
bytes is padded with zero lanes, a longer one cut. -/
def assemble : AsmCommand → Option CmdWord
  | .init klen len key =>
    if klen < 2 ^ 8 ∧ len < 2 ^ 64 then
      some (encode (.init (BitVec.ofNat 8 klen) (BitVec.ofNat 64 len) (laneField 128 (key.take 16))))
    else none
  | .absb chunk => if chunk.length = 8 then some (encode (.absb (laneField 64 chunk))) else none
  | .absw m => if m < 2 ^ 64 then some (encode (.absw (BitVec.ofNat 64 m))) else none
  | .absp first second =>
    if first < 2 ^ 32 ∧ second < 2 ^ 32 then
      some (encode (.absp (BitVec.ofNat 32 first) (BitVec.ofNat 32 second)))
    else none
  | .tailb n bytes =>
    if n ≤ 7 ∧ bytes.length = n then some (encode (.tailb (BitVec.ofNat 3 n) (laneField 64 bytes))) else none
  | .orw c => if c < 2 ^ 64 then some (encode (.orw (BitVec.ofNat 64 c))) else none
  | .fin => some (encode .fin)
  | .round => some (encode .round)
  | .clr => some (encode .clr)
  | .word w => some w

/-! ## The text of a line (R100) -/

/-- The tokens of a line. -/
inductive Token where
  | item (cs : List Char)
  | comma
  | openBracket
  | closeBracket
deriving DecidableEq, Repr

/-- Ends an item in progress. -/
def closeItem : List Char → List Token → List Token
  | [], ts => ts
  | c :: cs, ts => .item (c :: cs) :: ts

/-- The tokens of a line after the item `cur` in progress; `;` starts a comment. -/
def tokens : List Char → List Char → List Token
  | cur, [] => closeItem cur []
  | cur, c :: cs =>
    if c = ';' then closeItem cur []
    else if c = ' ' ∨ c = '\t' then closeItem cur (tokens [] cs)
    else if c = ',' then closeItem cur (.comma :: tokens [] cs)
    else if c = '[' then closeItem cur (.openBracket :: tokens [] cs)
    else if c = ']' then closeItem cur (.closeBracket :: tokens [] cs)
    else tokens (cur ++ [c]) cs

/-- A number, decimal or `0x` hexadecimal. -/
def readNumber : List Char → Option Nat
  | '0' :: 'x' :: c :: cs => readDigits hexValue 16 0 (c :: cs)
  | c :: cs => readDigits decimalValue 10 0 (c :: cs)
  | [] => none

/-- A byte written as two hexadecimal digits. -/
def readByte : List Char → Option Byte
  | [c, d] => (readDigits hexValue 16 0 [c, d]).map (BitVec.ofNat 8)
  | _ => none

/-- The bytes of a bracketed byte string up to its closing bracket, which ends the line. -/
def readBytes : List Token → Option (List Byte)
  | [.closeBracket] => some []
  | .item cs :: ts =>
    match readByte cs, readBytes ts with
    | some x, some xs => some (x :: xs)
    | _, _ => none
  | _ => none

/-- The command of a line's tokens. -/
def readTokens : List Token → Option AsmCommand
  | [.item ['F', 'I', 'N']] => some .fin
  | [.item ['R', 'O', 'U', 'N', 'D']] => some .round
  | [.item ['C', 'L', 'R']] => some .clr
  | [.item ['A', 'B', 'S', 'W'], .item m] => (readNumber m).map .absw
  | [.item ['O', 'R', 'W'], .item c] => (readNumber c).map .orw
  | [.item ['.', 'w', 'o', 'r', 'd'], .item digits] => (readWord digits).map .word
  | [.item ['A', 'B', 'S', 'P'], .item first, .comma, .item second] =>
    match readNumber first, readNumber second with
    | some f, some s => some (.absp f s)
    | _, _ => none
  | .item ['A', 'B', 'S', 'B'] :: .openBracket :: ts => (readBytes ts).map .absb
  | .item ['T', 'A', 'I', 'L', 'B'] :: .item n :: .comma :: .openBracket :: ts =>
    match readNumber n, readBytes ts with
    | some k, some bs => some (.tailb k bs)
    | _, _ => none
  | .item ['I', 'N', 'I', 'T'] :: .item klen :: .comma :: .item len :: .comma :: .openBracket :: ts =>
    match readNumber klen, readNumber len, readBytes ts with
    | some k, some l, some bs => some (.init k l bs)
    | _, _, _ => none
  | _ => none

/-- The word of one line of assembler text. -/
def assembleLine (text : List Char) : Option CmdWord :=
  match readTokens (tokens [] text) with
  | some a => assemble a
  | none => none

end Sys2Proof.Machine
end

