-- ==== Sys2Proof/Reference.lean ====
section
/-! DEFINITION. The function the engine exists to compute (00_scope.md R2), as a straight line over bytes with no commands:
preamble, absorption of the full chunks, trailing bytes, postamble (41_init.md R140, 42_absorb.md R150, 20_memory.md R53 to
R55, 44_final.md R185). It shares the round function and `Compress` with the machine and nothing of the encoding, the phases
or the commands. -/

namespace Sys2Proof.Reference

open Sys2Proof.Machine

/-- Absorbs the first `q` full 8-byte chunks, each decoded little-endian (R53, R150). -/
def absorbChunks : Nat → List Byte → Perm → Perm
  | 0, _, p => p
  | q + 1, bs, p => absorbChunks q (bs.drop 8) (compress (le64 (bs.take 8)) p)

/-- The last block, which is the accumulator at the postamble: the trailing bytes in order, zero bytes up to seven, the
length modulo 256 as the top byte, read little-endian (R54, R142, 44_final.md R186). -/
def lastBlock (data : List Byte) : Word :=
  let rest := data.drop (8 * (data.length / 8))
  le64 (rest ++ List.replicate (7 - rest.length) 0 ++ [BitVec.ofNat 8 data.length])

/-- `digest(key, bytes)` for a 16-byte key: 8 bytes, big-endian (R2, R55). -/
def digest (key data : List Byte) : List Byte :=
  let start := initialPerm (be64 (key.take 8)) (be64 ((key.drop 8).take 8))
  be64Bytes (digestWord (finalPerm (lastBlock data) (absorbChunks (data.length / 8) data start)))

end Sys2Proof.Reference
end

