-- ==== Sys2Proof/Safety.lean ====
section
/-! DEFINITION. The terms in which claims about runs are made: what a safe run is, the invariant of the architectural state, the
phase table of 30_encoding.md R96 as data, and the sequence of accepted words behind a run of clock edges
(70_reset_and_hazards.md R272, R275). -/

namespace Sys2Proof.Machine

/-- `k` steps of the machine, stopping at a fault or refusal: `Host.Core.run` of `Sys2Proof.core`. -/
def runSteps : Nat → State → Result
  | 0, s => .next s
  | k + 1, s =>
    match step s with
    | .next t => runSteps k t
    | .fault r => .fault r
    | .refused r => .refused r

/-- A safe run: `k` steps end in a next state, no fault and no refusal. -/
def SafeRun (k : Nat) (s : State) : Prop := ∃ t, runSteps k s = .next t

/-- The engine is frozen (60_exceptions.md R227). -/
def Frozen (e : Engine) : Prop := e.err ≠ .ok

/-- What every reachable architectural state satisfies: in `IDLE` v0..v3, b and dg are zero (10_state.md R26, R34); in
`ABSORB` the low 56 bits of b are zero (43_tail.md R171, R178); outside `DONE` dg is zero (R25); in `DONE` dg is the
digest of v0..v3 (R25, R26). It does not speak of `err`, so it holds under the frozen condition as well. -/
def EngineInv (e : Engine) : Prop :=
  (e.ph = .idle → e.v = ⟨0, 0, 0, 0⟩ ∧ e.b = 0) ∧
  (e.ph = .absorb → e.b.extractLsb' 0 56 = 0) ∧
  (e.ph ≠ .done → e.dg = 0) ∧
  (e.ph = .done → e.dg = digestWord e.v)

/-- An entry of the table of R96. -/
inductive Legality where
  /-- `->X`: legal, next phase X. -/
  | goesTo (p : Phase)
  /-- `SEQ`: raises `SequenceError`. -/
  | seq
  /-- Raises `InvalidKeyLength`. -/
  | keyLength
deriving DecidableEq, Repr

/-- An entry of a row of R96: legal in the given phases with the given next phase, `SEQ` in the others. -/
def Legality.within (legal : List Phase) (p next : Phase) : Legality := if p ∈ legal then .goesTo next else .seq

/-- The table of R96, row by row. It applies only when `err = 0`. -/
def phaseTable : Instr → Phase → Legality
  | .init klen _ _, _ => if klen = 16 then .goesTo .absorb else .keyLength
  | .absb _, p => Legality.within [.absorb] p .absorb
  | .absw _, p => Legality.within [.absorb] p .absorb
  | .absp _ _, p => Legality.within [.absorb] p .absorb
  | .tailb _ _, p => Legality.within [.absorb] p .tail
  | .orw _, p => Legality.within [.absorb] p .tail
  | .fin, p => Legality.within [.absorb, .tail] p .done
  | .round, p => Legality.within [.absorb] p .absorb
  | .clr, _ => .goesTo .idle

/-- What an event at the pins amounts to for the architectural state. -/
inductive PortAction where
  /-- An active `rst`. -/
  | reset
  /-- A word is accepted. -/
  | word (w : CmdWord)
deriving DecidableEq, Repr

/-- What the next event at the pins amounts to: a reset, an accepted word (R72), or nothing. -/
def nextAction (s : State) : Option PortAction :=
  match s.port with
  | [] => none
  | .reset :: _ => some .reset
  | .edge valid w :: _ => if s.busy = 0 ∧ valid = true then some (.word w) else none

/-- The actions of the first `k` steps, in order. -/
def actionsOf : Nat → State → List PortAction
  | 0, _ => []
  | k + 1, s =>
    match step s with
    | .next t => (nextAction s).toList ++ actionsOf k t
    | _ => []

/-- The fold of the spec's step function (and of reset) over a list of actions (R275). -/
def applyActions : List PortAction → State → Result
  | [], s => .next s
  | .reset :: as, s => applyActions as (applyReset s)
  | .word w :: as, s =>
    match acceptWord w s with
    | .next t => applyActions as t
    | .fault r => .fault r
    | .refused r => .refused r

end Sys2Proof.Machine
end

