-- ==== Sys2Proof/Certificates/Slice0/Obligations.lean ====
section
/-! DEFINITION. The statements for the provers. Each docstring names the rule of spec/ it formalises. -/

open Sys2Proof Sys2Proof.Machine

/-! ## Encoding -/

/-- Nine command words printed in 30_encoding.md R100 decode to the commands they are written for (a sanity statement). -/
def Obligations.PrintedWordsDecode : Prop :=
  decode 0x0110000000000000000f0f0e0d0c0b0a09080706050403020100#208 =
      .ok (.init 16 15 0x0f0e0d0c0b0a09080706050403020100) ∧
  decode 0x0200000000000000000000000000000000000706050403020100#208 = .ok (.absb 0x0706050403020100) ∧
  decode 0x0300070605040302010000000000000000000000000000000000#208 = .ok (.absw 0x0706050403020100) ∧
  decode 0x0400070605040302010000000000000000000000000000000000#208 = .ok (.absp 0x03020100 0x07060504) ∧
  decode 0x05030000000000000000000000000000000000000000000a0908#208 = .ok (.tailb 3 0x0a0908) ∧
  decode 0x060000000000deadbeef00000000000000000000000000000000#208 = .ok (.orw 0xdeadbeef) ∧
  decode 0x0700000000000000000000000000000000000000000000000000#208 = .ok .fin ∧
  decode 0x0800000000000000000000000000000000000000000000000000#208 = .ok .round ∧
  decode 0x0900000000000000000000000000000000000000000000000000#208 = .ok .clr

/-- Decoding an encoded command gives it back, for every command and every operand (R81, R85 to R94). -/
def Obligations.DecodeOfEncode : Prop := ∀ i : Instr, decode (encode i) = .ok i

/-- Encoding a decoded word gives the word back: decoding loses no bit, so two different well-formed words decode to
different commands (R89). -/
def Obligations.EncodeOfDecode : Prop := ∀ (w : CmdWord) (i : Instr), decode w = .ok i → encode i = w

/-- R99: a word is a well-formed word of a mnemonic if and only if it has the mnemonic's match under its mask; no
word satisfies two rows; a word that satisfies none is illegal. -/
def Obligations.MatchAndMask : Prop :=
  (∀ (w : CmdWord) (m : Mnemonic),
    (∃ i, decode w = .ok i ∧ i.mnemonic = m) ↔ ∃ r ∈ opcodeTable, r.mnemonic = m ∧ w &&& r.mask = r.pattern) ∧
  (∀ (w : CmdWord) (r r' : OpcodeRow), r ∈ opcodeTable → r' ∈ opcodeTable →
    w &&& r.mask = r.pattern → w &&& r'.mask = r'.pattern → r = r') ∧
  (∀ w : CmdWord, wellFormed w = false ↔ ∃ e, decode w = .error e)

/-- The decoder rejects a word exactly for the causes of R86 to R95, and names the cause: a reserved opcode (`0x00`,
`0x0a`..`0xff`), a `TAILB` with `N >= 8`, or a nonzero field among those that are MBZ for the opcode; it rejects no `INIT`. -/
def Obligations.RejectionsNameTheirCause : Prop :=
  ∀ (w : CmdWord) (e : DecodeError), decode w = .error e ↔
    match e with
    | .reservedOpcode op => op = opField w ∧ (op = 0 ∨ 0x0a ≤ op.toNat)
    | .tailCount n => opField w = 0x05 ∧ n = nField w ∧ 8 ≤ n.toNat
    | .fieldNotZero m => opField w = m.opcode ∧
      match m with
      | .init => False
      | .absb => nField w ≠ 0 ∨ xField w ≠ 0 ∨ yHigh w ≠ 0
      | .tailb => (nField w).toNat < 8 ∧ (xField w ≠ 0 ∨ yHigh w ≠ 0)
      | .absw => nField w ≠ 0 ∨ yField w ≠ 0
      | .absp => nField w ≠ 0 ∨ yField w ≠ 0
      | .orw => nField w ≠ 0 ∨ yField w ≠ 0
      | .fin => nField w ≠ 0 ∨ xField w ≠ 0 ∨ yField w ≠ 0
      | .round => nField w ≠ 0 ∨ xField w ≠ 0 ∨ yField w ≠ 0
      | .clr => nField w ≠ 0 ∨ xField w ≠ 0 ∨ yField w ≠ 0

/-! ## Words, bytes and the round function -/

/-- The byte conversions of 00_scope.md R8 undo one another, and `bswap64` is `be64(le64_bytes(w))` and its own inverse. -/
def Obligations.ByteConversionsRoundTrip : Prop :=
  ∀ w : Word, le64 (le64Bytes w) = w ∧ be64 (be64Bytes w) = w ∧ bswap64 w = be64 (le64Bytes w) ∧ bswap64 (bswap64 w) = w

/-- The closed form of `SipRound` in 40_sipround.md section 1, and its worked example. -/
def Obligations.SipRoundClosedForm : Prop :=
  (∀ a : Perm,
    let s0 := a.v0 + a.v1
    let t1 := rotl64 a.v1 13 ^^^ s0
    let s2 := a.v2 + a.v3
    let t3 := rotl64 a.v3 16 ^^^ s2
    let u0 := rotl64 s0 32 + t3
    let u2 := s2 + t1
    sipRound a = { v0 := u0, v1 := rotl64 t1 17 ^^^ u2, v2 := rotl64 u2 32, v3 := rotl64 t3 21 ^^^ u0 }) ∧
  sipRound ⟨1, 0, 0, 0⟩ = ⟨0x0000000100000000, 0x0000000000020001, 0x0000000100000000, 0x0000000100000000⟩

/-- R7: `rotl64(a, n)` moves bit `i` of `a` to bit `(i + n) mod 64`, for each rotation amount of the round. -/
def Obligations.RotationMovesEveryBit : Prop :=
  ∀ (a : Word) (n i : Nat), 1 ≤ n → n ≤ 63 → i < 64 → (rotl64 a n).getLsbD ((i + n) % 64) = a.getLsbD i

/-- R123: `SipRound` is a bijection, its inverse is the listing of the rule, and the zero state is a fixed point. -/
def Obligations.SipRoundIsABijection : Prop :=
  Function.Bijective sipRound ∧ (∀ p, sipRoundInverse (sipRound p) = p) ∧ (∀ p, sipRound (sipRoundInverse p) = p) ∧
  sipRound ⟨0, 0, 0, 0⟩ = ⟨0, 0, 0, 0⟩

/-- R158: for a fixed block word `Compress(m)` is a bijection, with the inverse of the rule. -/
def Obligations.CompressIsABijection : Prop :=
  ∀ m : Word, Function.Bijective (compress m) ∧
    ∀ p : Perm,
      (let q := sipRoundInverse (sipRoundInverse { p with v0 := p.v0 ^^^ m })
       compress m { q with v3 := q.v3 ^^^ m } = p)

/-! ## What each command does -/

/-- `INIT` with `KLEN = 16` completes in every phase of an unfrozen engine, with the state of 41_init.md's pseudocode: every
element of the architectural state but `err` written, nothing else changed. -/
def Obligations.InitCompletes : Prop :=
  ∀ (s : State) (len : Word) (key : BitVec 128), s.eng.err = .ok →
    exec (.init 16 len key) s = .next { s with eng :=
      { v := { v0 := 0x736f6d6570736575 ^^^ bswap64 (key.extractLsb' 0 64)
               v1 := 0x646f72616e646f6d ^^^ bswap64 (key.extractLsb' 64 64)
               v2 := 0x6c7967656e657261 ^^^ bswap64 (key.extractLsb' 0 64)
               v3 := 0x7465646279746573 ^^^ bswap64 (key.extractLsb' 64 64) }
        b := len <<< 56
        dg := 0
        ph := .absorb
        err := .ok } }

/-- R52: k0 is the big-endian value of key bytes 0..7 in lanes 0..7 of `KEY`, k1 of key bytes 8..15 in lanes 8..15; with the
example of the rule. -/
def Obligations.KeyWordsAreBigEndian : Prop :=
  (∀ key : BitVec 128,
    keyWord0 key = be64 [lane key 0, lane key 1, lane key 2, lane key 3, lane key 4, lane key 5, lane key 6, lane key 7] ∧
    keyWord1 key =
      be64 [lane key 8, lane key 9, lane key 10, lane key 11, lane key 12, lane key 13, lane key 14, lane key 15] ∧
    keyWord0 key = bswap64 (key.extractLsb' 0 64) ∧ keyWord1 key = bswap64 (key.extractLsb' 64 64)) ∧
  keyWord0 0x0f0e0d0c0b0a09080706050403020100 = 0x0001020304050607 ∧
  keyWord1 0x0f0e0d0c0b0a09080706050403020100 = 0x08090a0b0c0d0e0f

/-- R142: after `INIT` the accumulator is `LEN[7:0]` in bits 63:56 and zeros below; bits 63:8 of `LEN` have no effect on
anything, and lengths that differ modulo 256 give different tags. -/
def Obligations.LengthTagIsTheLowByte : Prop :=
  ∀ (s t : State) (len : Word) (key : BitVec 128), s.eng.err = .ok → exec (.init 16 len key) s = .next t →
    t.eng.b = ((len.extractLsb' 0 8).setWidth 64) <<< 56 ∧
    t.eng.b.extractLsb' 56 8 = len.extractLsb' 0 8 ∧ t.eng.b.extractLsb' 0 56 = 0 ∧
    ∀ len' : Word, (exec (.init 16 len' key) s = .next t ↔ len'.toNat % 256 = len.toNat % 256)

/-- The consequences the spec derives in R144 from R140: every key is accepted; whatever the key and the length, `v0 ^ v2` and
`v1 ^ v3` after `INIT` are two nonzero constants; the zero key leaves the four constants; a key half equal to a constant
zeroes its word; the cancelling key of the spec zeroes v0 and v1. -/
def Obligations.KeysNeverZeroAllWords : Prop :=
  (∀ (s : State) (len : Word) (key : BitVec 128), s.eng.err = .ok →
    ∃ t, exec (.init 16 len key) s = .next t ∧ t.eng.err = .ok ∧
      t.eng.v.v0 ^^^ t.eng.v.v2 = 0x1f160a001e161714 ∧ t.eng.v.v1 ^^^ t.eng.v.v3 = 0x100a160317100a1e ∧
      ¬(t.eng.v.v0 = 0 ∧ t.eng.v.v2 = 0) ∧ ¬(t.eng.v.v1 = 0 ∧ t.eng.v.v3 = 0) ∧
      (keyWord0 key = 0x736f6d6570736575 → t.eng.v.v0 = 0) ∧ (keyWord1 key = 0x646f72616e646f6d → t.eng.v.v1 = 0) ∧
      (keyWord0 key = 0x6c7967656e657261 → t.eng.v.v2 = 0) ∧ (keyWord1 key = 0x7465646279746573 → t.eng.v.v3 = 0) ∧
      (key = 0 → t.eng.v = ⟨0x736f6d6570736575, 0x646f72616e646f6d, 0x6c7967656e657261, 0x7465646279746573⟩) ∧
      (key = 0x6d6f646e61726f6475657370656d6f73 → t.eng.v = ⟨0, 0, 0x1f160a001e161714, 0x100a160317100a1e⟩))

/-- `ABSB`, `ABSW` and `ABSP` complete in `ABSORB` of an unfrozen engine: `Compress` of the block word of the path (R150,
R154), written out, and nothing else changed. -/
def Obligations.AbsorbCommandsComplete : Prop :=
  ∀ s : State, s.eng.err = .ok → s.eng.ph = .absorb →
    ∀ m : Word,
      let q := sipRound (sipRound { s.eng.v with v3 := s.eng.v.v3 ^^^ m })
      let t : State := { s with eng := { s.eng with v := { q with v0 := q.v0 ^^^ m } } }
      exec (.absb m) s = .next t ∧ exec (.absw m) s = .next t ∧
      ∀ first second : BitVec 32, m = (second.setWidth 64 <<< 32) ||| first.setWidth 64 →
        exec (.absp first second) s = .next t

/-- R157: for every state and every 64-bit `x`, `ABSP` and `ABSW` with `X = x` do the same, and so does `ABSB` of the
little-endian encodings of the two halves. -/
def Obligations.PackedPairIsOneInteger : Prop :=
  (∀ (s : State) (x : Word), exec (.absp (x.extractLsb' 0 32) (x.extractLsb' 32 32)) s = exec (.absw x) s) ∧
  (∀ (s : State) (first second : BitVec 32),
    exec (.absp first second) s = exec (.absw ((second.setWidth 64 <<< 32) ||| first.setWidth 64)) s ∧
    exec (.absp first second) s = exec (.absb (laneField 64 (le32Bytes first ++ le32Bytes second))) s)

/-- `ROUND` completes in `ABSORB` of an unfrozen engine: one `SipRound` of v0..v3 and nothing else (40_sipround.md section 2);
the worked example of that section. -/
def Obligations.RoundCompletes : Prop :=
  (∀ s : State, s.eng.err = .ok → s.eng.ph = .absorb →
    exec .round s = .next { s with eng := { s.eng with v := sipRound s.eng.v } }) ∧
  sipRound ⟨0x736e6f6674766372, 0x6c66786a62696162, 0x6c7865666a607466, 0x7c6c6e6975796b7c⟩ =
    ⟨0x5d6d6b8b947a8b5e, 0xae858a8ac87d4889, 0xdacd693af9be7f6d, 0x8bbbff3fe5aa5aea⟩

/-- `TAILB` and `ORW` complete in `ABSORB` of an unfrozen engine: `b <- b | t` with the operand of R170 or R175, `ph <- TAIL`,
and nothing else changed. -/
def Obligations.FoldCommandsComplete : Prop :=
  ∀ s : State, s.eng.err = .ok → s.eng.ph = .absorb →
    (∀ (cnt : BitVec 3) (bytes : Word),
      exec (.tailb cnt bytes) s = .next { s with eng :=
        { s.eng with b := s.eng.b ||| (bytes &&& BitVec.ofNat 64 (2 ^ (8 * cnt.toNat) - 1)), ph := .tail } }) ∧
    (∀ c : Word, exec (.orw c) s = .next { s with eng := { s.eng with b := s.eng.b ||| c, ph := .tail } })

/-- R54: whatever the lanes at and above `r` hold, the `r` trailing bytes `T[0..r-1]` in lanes 0..r-1 are packed with `T[0]`
lowest, as `le64` of the trailing bytes followed by zero bytes; with the example of the rule. -/
def Obligations.TrailingBytesAreLittleEndian : Prop :=
  (∀ (bytes : Word) (T : List Byte), 1 ≤ T.length → T.length ≤ 7 → (∀ i, i < T.length → T[i]? = some (lane bytes i)) →
    tailWord (BitVec.ofNat 3 T.length) bytes = BitVec.ofNat 64 (leNat T) ∧
    tailWord (BitVec.ofNat 3 T.length) bytes = le64 (T ++ List.replicate (8 - T.length) 0)) ∧
  tailWord 3 (laneField 64 [0x08, 0x09, 0x0a]) = 0x00000000000a0908

/-- R173: lanes `CNT`..7 of `BYTES` are ignored: two operands that agree below lane `CNT` do the same, in every state. -/
def Obligations.UnusedTailLanesAreIgnored : Prop :=
  (∀ (s : State) (cnt : BitVec 3) (x y : Word), (∀ i, i < cnt.toNat → lane x i = lane y i) →
    exec (.tailb cnt x) s = exec (.tailb cnt y) s) ∧
  tailWord 3 0x8877665544332211 = 0x0000000000332211

/-- R171: `TAILB` cannot touch the length tag, in any state; `t < 2^56`; and in phase `ABSORB` of a state that satisfies the
invariant the OR writes `t` into `b[55:0]`. -/
def Obligations.TailbKeepsTheLengthTag : Prop :=
  (∀ (s t : State) (cnt : BitVec 3) (bytes : Word), exec (.tailb cnt bytes) s = .next t →
    t.eng.b.extractLsb' 56 8 = s.eng.b.extractLsb' 56 8 ∧ (tailWord cnt bytes).toNat < 2 ^ 56) ∧
  (∀ (s : State) (cnt : BitVec 3) (bytes : Word), s.eng.err = .ok → s.eng.ph = .absorb → EngineInv s.eng →
    ∃ t, exec (.tailb cnt bytes) s = .next t ∧
      t.eng.b = s.eng.b.extractLsb' 56 8 ++ (tailWord cnt bytes).extractLsb' 0 56)

/-- R172: `TAILB` with `CNT = 0` leaves b unchanged and moves to `TAIL`, where no block is absorbed any more; the `FIN` that
follows leaves the state that `FIN` without it leaves; the sequence of `digest(key, bytes)` never issues it, and folds no
trailing bytes when the length is a multiple of 8. -/
def Obligations.EmptyTailOnlyMovesThePhase : Prop :=
  (∀ (s : State) (bytes : Word), s.eng.err = .ok → s.eng.ph = .absorb →
    ∃ t u, exec (.tailb 0 bytes) s = .next t ∧ t = { s with eng := { s.eng with ph := .tail } } ∧
      (∀ i : Instr, i.mnemonic = .absb ∨ i.mnemonic = .absw ∨ i.mnemonic = .absp →
        exec i t = .next { t with eng := { t.eng with err := .sequence } }) ∧
      exec .fin t = .next u ∧ exec .fin s = .next u) ∧
  (∀ (data : List Byte) (i : Instr), i ∈ byteCommands data →
    (∀ bytes, i ≠ .tailb 0 bytes) ∧ (data.length % 8 = 0 → i.mnemonic = .absb))

/-- R176: `ORW` accepts every 64-bit operand in `ABSORB`, raises no error, and ORs bits 63:56 of it into the length tag, and the
`FIN` that follows computes the digest from that b; the examples of the rule. -/
def Obligations.OrwDoesNotMask : Prop :=
  (∀ (s : State) (c : Word), s.eng.err = .ok → s.eng.ph = .absorb →
    ∃ t, exec (.orw c) s = .next t ∧ t.eng.err = .ok ∧ t.eng.b = s.eng.b ||| c ∧
      t.eng.b.extractLsb' 56 8 = s.eng.b.extractLsb' 56 8 ||| c.extractLsb' 56 8 ∧
      (∃ u, exec .fin t = .next u ∧ u.eng.err = .ok ∧
        u.eng.dg = digestWord (finalPerm (s.eng.b ||| c) s.eng.v)) ∧
      (s.eng.b = 0x0400000000000000 → c = 0x0100000000000000 → t.eng.b = 0x0500000000000000) ∧
      (c = 0xffffffffffffffff → t.eng.b = 0xffffffffffffffff))

/-- R178: for `C < 2^56` `ORW C` has the effect of `TAILB 7` with the low seven bytes of `C` in its lanes, for `C < 2^32` also of
`TAILB 4`, in every state; both leave phase `TAIL`, where neither is legal; and in `ABSORB` of a state that satisfies the
invariant the fold puts the operand below the tag. -/
def Obligations.OrwAndTailbMeet : Prop :=
  (∀ (s : State) (c : Word), c.toNat < 2 ^ 56 → exec (.orw c) s = exec (.tailb 7 c) s) ∧
  (∀ (s : State) (c : Word), c.toNat < 2 ^ 32 → exec (.orw c) s = exec (.tailb 4 c) s) ∧
  (∀ (s : State) (i : Instr), s.eng.err = .ok → s.eng.ph = .absorb → i.mnemonic = .orw ∨ i.mnemonic = .tailb →
    ∃ t, exec i s = .next t ∧ t.eng.ph = .tail ∧ t.eng.err = .ok ∧
      ∀ j : Instr, j.mnemonic = .orw ∨ j.mnemonic = .tailb →
        exec j t = .next { t with eng := { t.eng with err := .sequence } }) ∧
  (∀ (s : State) (c : Word), s.eng.err = .ok → s.eng.ph = .absorb → EngineInv s.eng → c.toNat < 2 ^ 56 →
    ∃ t, exec (.orw c) s = .next t ∧ t.eng.b = s.eng.b.extractLsb' 56 8 ++ c.extractLsb' 0 56)

/-- `FIN` completes in `ABSORB` and in `TAIL` of an unfrozen engine with the state of 44_final.md's pseudocode: two rounds
around the injection of b, `0xff` into v2, four rounds, the digest latched, `ph = DONE`; b and everything else unchanged. -/
def Obligations.FinCompletes : Prop :=
  ∀ s : State, s.eng.err = .ok → s.eng.ph = .absorb ∨ s.eng.ph = .tail →
    let p := sipRound (sipRound { s.eng.v with v3 := s.eng.v.v3 ^^^ s.eng.b })
    let q : Perm := { p with v0 := p.v0 ^^^ s.eng.b, v2 := p.v2 ^^^ 0x00000000000000ff }
    let r := sipRound (sipRound (sipRound (sipRound q)))
    exec .fin s = .next { s with eng := { s.eng with v := r, dg := r.v0 ^^^ r.v1 ^^^ r.v2 ^^^ r.v3, ph := .done } }

/-- The worked example of 44_final.md section R185, from the state before `FIN` to the outputs after it, and the digest of
the empty input in R187. -/
def Obligations.FinWorkedExample : Prop :=
  (∃ t, exec .fin { State.reset with eng :=
      { v := ⟨0xe6c6568ed87e2577, 0x2e66619568d7bba6, 0xaef47c2e7611d400, 0x74f9432f37099cf8⟩
        b := 0x0f0e0d0c0b0a0908, dg := 0, ph := .tail, err := .ok } } = .next t ∧
    t.eng.v = ⟨0x31e4872797bd4ad7, 0xdd35c539dbfe5026, 0x8a7441931489a043, 0xf0f9ab59c621b5a6⟩ ∧
    t.eng.dg = 0x965ca8d49eeb0f14 ∧ outputs t.eng = ⟨0x140feb9ed4a85c96, true, 3, false⟩) ∧
  (∃ t, runWords [0x011000000000000000000f0e0d0c0b0a09080706050403020100#208,
      0x0700000000000000000000000000000000000000000000000000#208] State.reset = .next t ∧
    t.eng.dg = 0x48dd3a16b9a440c3)

/-- R190: `CLR` completes in every state, frozen or not, and leaves the reset state of R34, `dvalid` and `fault` 0; with
`err = 0` a `CLR` word with an MBZ bit set raises `IllegalCommand`, and while frozen such a word is ignored; in `IDLE` of a
state that satisfies the invariant, unfrozen, `CLR` changes nothing. -/
def Obligations.ClrCompletes : Prop :=
  (∀ s : State, exec .clr s = .next { s with eng :=
    { v := ⟨0, 0, 0, 0⟩, b := 0, dg := 0, ph := .idle, err := .ok } }) ∧
  (∀ s : State, acceptWord 0x0900000000000000000000000000000000000000000000000000#208 s = exec .clr s) ∧
  (∀ (s : State) (w : CmdWord), opField w = 0x09 → w ≠ 0x0900000000000000000000000000000000000000000000000000#208 →
    acceptWord w s = .next (if s.eng.err = .ok then { s with eng := { s.eng with err := .illegal } } else s)) ∧
  (∀ s : State, s.eng.err = .ok → s.eng.ph = .idle → EngineInv s.eng → exec .clr s = .next s) ∧
  (∀ s t : State, exec .clr s = .next t → t.eng = State.reset.eng ∧ dvalid t.eng = false ∧ faultLine t.eng = false ∧
    dout t.eng = 0)

/-- What each command leaves unchanged (10_state.md R22, R23, R25, R26): outside the architectural state everything; inside
it, what the rule's lists do not name. -/
def Obligations.CommandsWriteOnlyTheirState : Prop :=
  ∀ (i : Instr) (s t : State), exec i s = .next t →
    t.busy = s.busy ∧ t.lat = s.lat ∧ t.port = s.port ∧
    match i with
    | .init _ _ _ => t.eng.err = s.eng.err ∨ t.eng = { s.eng with err := .keylen }
    | .absb _ => t.eng = { s.eng with v := t.eng.v } ∨ t.eng = { s.eng with err := .sequence }
    | .absw _ => t.eng = { s.eng with v := t.eng.v } ∨ t.eng = { s.eng with err := .sequence }
    | .absp _ _ => t.eng = { s.eng with v := t.eng.v } ∨ t.eng = { s.eng with err := .sequence }
    | .round => t.eng = { s.eng with v := t.eng.v } ∨ t.eng = { s.eng with err := .sequence }
    | .tailb _ _ => t.eng = { s.eng with b := t.eng.b, ph := t.eng.ph } ∨ t.eng = { s.eng with err := .sequence }
    | .orw _ => t.eng = { s.eng with b := t.eng.b, ph := t.eng.ph } ∨ t.eng = { s.eng with err := .sequence }
    | .fin => t.eng = { s.eng with v := t.eng.v, dg := t.eng.dg, ph := t.eng.ph } ∨
        t.eng = { s.eng with err := .sequence }
    | .clr => True

/-! ## Errors, phases, the order of checks -/

/-- R222, R223, R226 (and the condition of R221): an accepted word raises `IllegalCommand` exactly when it is not well-formed,
`SequenceError` exactly when it is a command out of phase, `InvalidKeyLength` exactly when it is an `INIT` with `N != 16`; an
error writes `err` and nothing else, and shows on the outputs. -/
def Obligations.ErrorsHaveExactlyTheirCauses : Prop :=
  ∀ (w : CmdWord) (s t : State), s.eng.err = .ok → acceptWord w s = .next t →
    (t.eng.err = .illegal ↔ wellFormed w = false) ∧
    (t.eng.err = .sequence ↔ wellFormed w = true ∧
      (opField w ∈ [0x02, 0x03, 0x04, 0x05, 0x06, 0x08] ∧ s.eng.ph ∈ [.idle, .tail, .done] ∨
        opField w = 0x07 ∧ s.eng.ph ∈ [.idle, .done])) ∧
    (t.eng.err = .keylen ↔ opField w = 0x01 ∧ nField w ≠ 16) ∧
    (t.eng.err ≠ .ok → t = { s with eng := { s.eng with err := t.eng.err } } ∧
      faultLine t.eng = true ∧ (statusWord t.eng).extractLsb' 2 2 = errCode t.eng.err ∧
      dvalid t.eng = false ∧ dout t.eng = 0)

/-- While `err != 0` every accepted word but the well-formed `CLR` changes nothing, and `CLR` leaves the reset state (R227,
R228); and the handshake goes on: the word is consumed at the edge that presents it and lowers `cmd_ready` for its latency.
(That last clause rests on the model's choices: the form of the port, log 1, and the latency's bookkeeping, log 2.) -/
def Obligations.FrozenEngineObeysOnlyClr : Prop :=
  ∀ (w : CmdWord) (s : State), s.eng.err ≠ .ok →
    let e := if w = 0x0900000000000000000000000000000000000000000000000000#208 then Engine.zero else s.eng
    acceptWord w s = .next { s with eng := e } ∧
    ∀ rest, s.busy = 0 → s.port = .edge true w :: rest →
      step s = .next { s with eng := e, port := rest, busy := latencyOf w s }

/-- R96: in an unfrozen engine every well-formed word has the outcome the phase table gives its command: the next phase
without error, or the error and no other change. -/
def Obligations.PhaseTableDecidesEveryCommand : Prop :=
  ∀ (w : CmdWord) (i : Instr) (s : State), decode w = .ok i → s.eng.err = .ok →
    ∃ t, acceptWord w s = .next t ∧
      match phaseTable i s.eng.ph with
      | .goesTo p => t.eng.err = .ok ∧ t.eng.ph = p
      | .seq => t = { s with eng := { s.eng with err := .sequence } }
      | .keyLength => t = { s with eng := { s.eng with err := .keylen } }

/-- R97: the order of checks, first match wins. -/
def Obligations.OrderOfChecks : Prop :=
  ∀ (w : CmdWord) (s : State),
    acceptWord w s =
      if s.eng.err ≠ .ok then
        if w = 0x0900000000000000000000000000000000000000000000000000#208 then exec .clr s else .next s
      else if wellFormed w = false then .next { s with eng := { s.eng with err := .illegal } }
      else
        match (decode w).toOption with
        | none => .next s
        | some i =>
          if phaseTable i s.eng.ph = .seq then .next { s with eng := { s.eng with err := .sequence } }
          else if i.mnemonic = .init ∧ nField w ≠ 16 then .next { s with eng := { s.eng with err := .keylen } }
          else exec i s

/-- The sticky latch (10_state.md R27) over whole steps: a nonzero `err` and everything beside it change only when the step is
a reset or accepts the well-formed `CLR` word, which leave the reset state. (What a step takes from the port is log 1.) -/
def Obligations.ErrorLatchIsSticky : Prop :=
  ∀ s t : State, step s = .next t → s.eng.err ≠ .ok →
    if nextAction s = some .reset ∨
        nextAction s = some (.word 0x0900000000000000000000000000000000000000000000000000#208) then t.eng = Engine.zero
    else t.eng = s.eng

/-! ## Outputs -/

/-- While `dvalid` is 1 the lanes of `dout` are the digest bytes, big-endian of `dg`, and otherwise `dout` is 0 (R56, with its
example); over a step the digest stays until the next accepted word or reset, and each of these withdraws it (in `DONE` a
word is an `INIT`, a `CLR` or an error). (The clause over a step rests on the model's choices: what a step takes from the
port, log 1; and that the new state holds from the accepting edge on, busy or not, log 3.) -/
def Obligations.DigestPortIsBigEndian : Prop :=
  (∀ e : Engine, (dvalid e = true ↔ e.ph = .done ∧ e.err = .ok) ∧
    (dvalid e = true → dout e = bswap64 e.dg ∧ le64Bytes (dout e) = be64Bytes e.dg ∧
      ∀ i, i < 8 → lane (dout e) i = e.dg.extractLsb' (56 - 8 * i) 8) ∧
    (dvalid e = false → dout e = 0)) ∧
  (∀ s t : State, dvalid s.eng = true → step s = .next t →
    (nextAction s = none → t.eng = s.eng) ∧ (nextAction s ≠ none → dvalid t.eng = false ∧ dout t.eng = 0)) ∧
  bswap64 0x0123456789abcdef = 0xefcdab8967452301 ∧
  be64Bytes 0x0123456789abcdef = [0x01, 0x23, 0x45, 0x67, 0x89, 0xab, 0xcd, 0xef]

/-- R28 and R29: `STATUS` holds `err` in bits 3:2 and `ph` in bits 1:0, each code read back from it names the element; `fault`
is 1 exactly when `err != 0`. -/
def Obligations.StatusShowsPhaseAndError : Prop :=
  ∀ e : Engine, (statusWord e).extractLsb' 2 2 = errCode e.err ∧ (statusWord e).extractLsb' 0 2 = phaseCode e.ph ∧
    (faultLine e = true ↔ e.err ≠ .ok) ∧
    ∀ e' : Engine, statusWord e' = statusWord e → e'.ph = e.ph ∧ e'.err = e.err

/-! ## Steps and runs -/

/-- R34: the machine right after reset, and its outputs; the same state as after `CLR`. -/
def Obligations.ResetState : Prop :=
  State.reset.eng = { v := ⟨0, 0, 0, 0⟩, b := 0, dg := 0, ph := .idle, err := .ok } ∧
  outputs State.reset.eng = { dout := 0, dvalid := false, status := 0, fault := false } ∧
  ∀ s : State, ∃ t, exec .clr s = .next t ∧ t.eng = State.reset.eng

/-- R260: an active `rst` in any state, a command in progress included, leaves the reset values, `cmd_ready = 1` and the
outputs of the rule; no word is accepted with it; `CLR` has the same effect on the architectural state. -/
def Obligations.ResetFromAnyState : Prop :=
  ∀ (s : State) (rest : List PortEvent), s.port = .reset :: rest →
    ∃ t, step s = .next t ∧ t.eng = { v := ⟨0, 0, 0, 0⟩, b := 0, dg := 0, ph := .idle, err := .ok } ∧
      cmdReady t = true ∧ sample t = some { dout := 0, dvalid := false, status := 0, fault := false } ∧
      t.port = rest ∧ ∃ u, exec .clr s = .next u ∧ u.eng = t.eng

/-- A rising edge that presents a word to a ready engine runs the decoded command: one step is `exec` of it, with the event
taken from the port and `cmd_ready` lowered for the command's latency. An ill-formed word raises `IllegalCommand` or is
ignored. (How events reach the step is the model's choice, log 1; the latency's bookkeeping is log 2.) -/
def Obligations.StepRunsTheDecodedCommand : Prop :=
  ∀ (s : State) (w : CmdWord) (rest : List PortEvent), s.busy = 0 → s.port = .edge true w :: rest →
    (∀ i, decode w = .ok i → step s = exec i { s with port := rest, busy := latencyOf w s }) ∧
    (∀ e, decode w = .error e → step s = .next { s with
      port := rest
      busy := s.lat.refused
      eng := if s.eng.err = .ok then { s.eng with err := .illegal } else s.eng })

/-- The other events (20_memory.md section 5): a word presented while `cmd_ready = 0`, an edge without `cmd_valid`, and no
event at all leave the architectural state as it is. (The form of the events is the model's choice, log 1.) -/
def Obligations.IdleEdgesKeepTheState : Prop :=
  (∀ s : State, s.port = [] → step s = .next s) ∧
  (∀ (s : State) (w : CmdWord) (rest : List PortEvent), s.port = .edge false w :: rest → s.busy = 0 →
    step s = .next { s with port := rest }) ∧
  (∀ (s : State) (valid : Bool) (w : CmdWord) (rest : List PortEvent), s.port = .edge valid w :: rest → s.busy ≠ 0 →
    step s = .next { s with port := rest, busy := s.busy - 1 })

/-- After a command the engine is ready again exactly when its latency has passed, whatever the host drives meanwhile
(R72, R273): `k` rising edges with `k` at most the edges left change nothing but the count. (The form of the port is the
model's choice, log 1, and so is the count of edges left, log 2.) -/
def Obligations.ReadyAgainAfterTheLatency : Prop :=
  ∀ (s : State) (es : List (Bool × CmdWord)) (rest : List PortEvent),
    s.port = es.map (fun e => PortEvent.edge e.1 e.2) ++ rest → es.length ≤ s.busy →
    ∃ t, runSteps es.length s = .next t ∧ t = { s with busy := s.busy - es.length, port := rest } ∧
      (cmdReady t = true ↔ es.length = s.busy)

/-- The time a word takes depends on its opcode alone, on no operand, key or state value (R273), and every word that is
refused takes one and the same time (which entry a refused word takes is the model's choice, log 2). -/
def Obligations.LatencyIgnoresData : Prop :=
  (∀ (w w' : CmdWord) (s s' : State), s.lat = s'.lat → s.eng.err = .ok → s'.eng.err = .ok →
    wellFormed w = true → wellFormed w' = true → opField w = opField w' → latencyOf w s = latencyOf w' s') ∧
  (∀ (w : CmdWord) (s : State), wellFormed w = false ∨
    (s.eng.err ≠ .ok ∧ w ≠ 0x0900000000000000000000000000000000000000000000000000#208) → latencyOf w s = s.lat.refused)

/-- No state stops the machine: every step answers a next state, and so does every run (R60, R275; that a step with no event
left keeps the state is the model's choice, log 1). -/
def Obligations.TheMachineNeverStops : Prop :=
  (∀ s : State, ∃ t, step s = .next t) ∧ ∀ (k : Nat) (s : State), SafeRun k s

/-- The architectural state after a run of clock edges is the fold of the spec's step function over the words accepted on the
way (and the resets): it depends on nothing else (R60, R72, R272, R275). (The form of the port's events is the model's choice,
log 1; that a word's effect holds from its accepting edge on is log 3.) -/
def Obligations.RunIsTheFoldOfItsAcceptedWords : Prop :=
  ∀ (k : Nat) (s : State), ∃ t u, runSteps k s = .next t ∧ applyActions (actionsOf k s) s = .next u ∧ u.eng = t.eng

/-- The invariant of the architectural state is kept by every step, from every state that satisfies it. (What a step takes
from the port is the model's choice, log 1.) -/
def Obligations.EveryStepKeepsTheInvariant : Prop :=
  ∀ s t : State, EngineInv s.eng → step s = .next t → EngineInv t.eng

/-- The invariant holds at reset. -/
def Obligations.TheInvariantHoldsAtReset : Prop := EngineInv State.reset.eng

/-- R32: what a computation leaves depends only on the commands from its `INIT` on: two unfrozen engines, whatever they hold,
are in the same state after the same words, if the first is an `INIT` with `KLEN = 16`. -/
def Obligations.ComputationDependsOnlyOnItsCommands : Prop :=
  ∀ (s s' : State) (len : Word) (key : BitVec 128) (ws : List CmdWord), s.eng.err = .ok → s'.eng.err = .ok →
    ∃ t t', runWords (encode (.init 16 len key) :: ws) s = .next t ∧
      runWords (encode (.init 16 len key) :: ws) s' = .next t' ∧ t.eng = t'.eng

/-- The length tag (10_state.md R24): from an `INIT` with length `LEN`, through any commands but `INIT`, `CLR` and an `ORW` that
sets a tag bit `LEN` lacks, the top byte of b stays `LEN[7:0]`. -/
def Obligations.LengthTagReachesFinalisation : Prop :=
  ∀ (s t : State) (len : Word) (key : BitVec 128) (is : List Instr), s.eng.err = .ok →
    (∀ i ∈ is, i.mnemonic ≠ .init ∧ i.mnemonic ≠ .clr ∧
      ∀ c, i = .orw c → c.extractLsb' 56 8 ||| len.extractLsb' 0 8 = len.extractLsb' 0 8) →
    runWords (programWords (.init 16 len key :: is)) s = .next t →
    t.eng.b.extractLsb' 56 8 = len.extractLsb' 0 8

/-! ## The entry points -/

/-- The function the engine exists to compute (00_scope.md R2, 45_sequences.md R200, R207): for every 16-byte key and every byte
string, from any unfrozen state, the command sequence of `digest(key, bytes)` ends in `DONE` without error, and the driver
reads the 8 bytes of the straight-line reference. -/
def Obligations.ByteDigestComputesTheReference : Prop :=
  ∀ (s : State) (key data : List Byte), s.eng.err = .ok → key.length = 16 →
    ∃ t, runWords (programWords (digestProgram key data)) s = .next t ∧
      t.eng.err = .ok ∧ t.eng.ph = .done ∧
      driverResult (outputs t.eng) = .digest (Reference.digest key data) ∧
      Reference.digest key data = be64Bytes t.eng.dg

/-- R156: absorbing an integer equals absorbing its little-endian bytes, command by command in every state, and so each 64-bit
tuple form ends in the state of the byte form of the concatenated little-endian encodings. -/
def Obligations.FastPathsEqualTheBytePath : Prop :=
  (∀ (s : State) (a : Word), exec (.absw a) s = exec (.absb a) s ∧
    exec (.absw a) s = exec (.absb (laneField 64 (le64Bytes a))) s) ∧
  (∀ (key : List Byte) (a b c d : Word), key.length = 16 → ∀ s : State, s.eng.err = .ok →
    let same (p q : List Instr) := ∃ t u,
      runWords (programWords p) s = .next t ∧ runWords (programWords q) s = .next u ∧ t.eng = u.eng ∧ t.eng.ph = .done
    same (digest1x64Program key a.toNat) (digestProgram key (le64Bytes a)) ∧
    same (digest2x64Program key a.toNat b.toNat) (digestProgram key (le64Bytes a ++ le64Bytes b)) ∧
    same (digest3x64Program key a.toNat b.toNat c.toNat) (digestProgram key (le64Bytes a ++ le64Bytes b ++ le64Bytes c)) ∧
    same (digest4x64Program key a.toNat b.toNat c.toNat d.toNat)
      (digestProgram key (le64Bytes a ++ le64Bytes b ++ le64Bytes c ++ le64Bytes d)))

/-- The 32-bit forms (45_sequences.md R205, R206): for operands that fit, `digest_1x32` and `digest_3x32` give the digest of the
little-endian encodings (under the trailing-byte order of R54, log 8); their drivers refuse what the fields cannot carry. -/
def Obligations.ThirtyTwoBitFormsEqualTheByteForm : Prop :=
  (∀ (s : State) (key : List Byte) (a b c : BitVec 32), s.eng.err = .ok → key.length = 16 →
    ∃ is js t u, digest1x32Program key a.toNat = some is ∧ digest3x32Program key a.toNat b.toNat c.toNat = some js ∧
      runWords (programWords is) s = .next t ∧ runWords (programWords js) s = .next u ∧
      driverResult (outputs t.eng) = .digest (Reference.digest key (le32Bytes a)) ∧
      driverResult (outputs u.eng) = .digest (Reference.digest key (le32Bytes a ++ le32Bytes b ++ le32Bytes c))) ∧
  (∀ (key : List Byte) (a b c : Nat), 2 ^ 32 ≤ a ∨ 2 ^ 32 ≤ b ∨ 2 ^ 64 ≤ c → digest3x32Program key a b c = none) ∧
  (∀ (key : List Byte) (a : Nat), 2 ^ 64 ≤ a → digest1x32Program key a = none)

/-- A 64-bit argument of 2^64 or more is reduced modulo 2^64 by the driver (45_sequences.md R208). -/
def Obligations.WideIntegersAreReduced : Prop :=
  ∀ (key : List Byte) (a b c d : Nat),
    digest1x64Program key a = digest1x64Program key (a % 2 ^ 64) ∧
    digest2x64Program key a b = digest2x64Program key (a % 2 ^ 64) (b % 2 ^ 64) ∧
    digest3x64Program key a b c = digest3x64Program key (a % 2 ^ 64) (b % 2 ^ 64) (c % 2 ^ 64) ∧
    digest4x64Program key a b c d = digest4x64Program key (a % 2 ^ 64) (b % 2 ^ 64) (c % 2 ^ 64) (d % 2 ^ 64)

/-- The error end of R207: an entry point called on an unfrozen engine with a key that is not 16 bytes, of any length, ends
with `err = KEYLEN`, every later command ignored, and the driver reads `InvalidKeyLength` and issues `CLR`, which leaves the
reset state; for any absorption part without `CLR`. (Which `KLEN` a key of 256 bytes or more gets is a free value, log 9.) -/
def Obligations.WrongKeyLengthEndsTheEntryPoint : Prop :=
  ∀ (s : State) (key : List Byte) (len : Nat) (is : List Instr), s.eng.err = .ok → key.length ≠ 16 →
    (∀ i ∈ is, i.mnemonic ≠ .clr) →
    ∃ t, runWords (programWords (computation key len is)) s = .next t ∧
      t = { s with eng := { s.eng with err := .keylen } } ∧
      faultLine t.eng = true ∧ dvalid t.eng = false ∧ dout t.eng = 0 ∧
      driverResult (outputs t.eng) = .invalidKeyLength ∧
      ∀ discardDigest : Bool, callEntry discardDigest (computation key len is) s =
        some (.invalidKeyLength, { s with eng := Engine.zero })

/-- R82 and R100 (log 11 for the text's details): the 52 digits of a word read back as the word, for every word. -/
def Obligations.WrittenWordReadsBack : Prop := ∀ w : CmdWord, readWord (writtenWord w) = some w

/-- The result of a call of `digest(key, bytes)` on an unfrozen engine, for a key of any length (R200, R207): the digest for a
16-byte key and `InvalidKeyLength` for every other, a function of the arguments alone; the call leaves the engine unfrozen,
so the same holds of the next call, whether or not the driver discards the state after a digest. -/
def Obligations.EveryCallReturnsItsValue : Prop :=
  ∀ (discardDigest : Bool) (s : State) (key data : List Byte), s.eng.err = .ok →
    ∃ u, callEntry discardDigest (digestProgram key data) s =
        some (if key.length = 16 then .digest (Reference.digest key data) else .invalidKeyLength, u) ∧
      u.eng.err = .ok ∧ u.eng.ph = (if key.length = 16 ∧ discardDigest = false then .done else .idle) ∧
      (key.length ≠ 16 ∨ discardDigest = true → u.eng = Engine.zero)
end

