-- ==== Sys2Proof/Laws/Bytes.lean ====
section
/-! SUPPORT. The bits of lane fields and of byte strings read as numbers: every byte-order fact reduces to these. -/

namespace Sys2Proof.Machine

/-- Bit `i` of the number of a byte string is bit `i % 8` of byte `i / 8`, zero past the string (R8). -/
theorem testBit_leNat (bs : List Byte) (i : Nat) : (leNat bs).testBit i = (bs.getD (i / 8) 0).getLsbD (i % 8) := by
  induction bs generalizing i with
  | nil => simp [leNat]
  | cons x xs ih =>
    have h : leNat (x :: xs) = 2 ^ 8 * leNat xs + x.toNat := by rw [leNat]; omega
    rw [h, Nat.testBit_two_pow_mul_add _ x.isLt]
    by_cases hi : i < 8
    · rw [if_pos hi, Nat.div_eq_of_lt hi, Nat.mod_eq_of_lt hi]
      rfl
    · rw [if_neg hi, ih, show i / 8 = (i - 8) / 8 + 1 by omega, show (i - 8) % 8 = i % 8 by omega]
      rfl

/-- Bit `i` of a lane field (R51). -/
theorem getLsbD_laneField (n : Nat) (bs : List Byte) (i : Nat) :
    (laneField n bs).getLsbD i = (decide (i < n) && (bs.getD (i / 8) 0).getLsbD (i % 8)) := by
  rw [laneField, BitVec.getLsbD_ofNat, testBit_leNat]

/-- Bit `j` of a lane (R51). -/
theorem getLsbD_lane {n : Nat} (f : BitVec n) (i j : Nat) :
    (lane f i).getLsbD j = (decide (j < 8) && f.getLsbD (8 * i + j)) := by
  rw [lane, BitVec.getLsbD_extractLsb']

/-- Lane `i` of a lane field of whole bytes is byte `i` of the string, zero past it. -/
theorem lane_laneField {n : Nat} (bs : List Byte) {i : Nat} (h : 8 * i + 8 ≤ n) :
    lane (laneField n bs) i = bs.getD i 0 := by
  apply BitVec.eq_of_getLsbD_eq
  intro j hj
  rw [getLsbD_lane, getLsbD_laneField, show (8 * i + j) / 8 = i by omega, show (8 * i + j) % 8 = j by omega]
  simp [hj, show 8 * i + j < n by omega]

end Sys2Proof.Machine
end

