-- ==== Sys2Proof/Laws/Decode.lean ====
section
/-! SUPPORT. The fields of an assembled word and the word of its fields. -/

namespace Sys2Proof

theorem getLsbD_assembleFields (op n : Byte) (x : Word) (y : BitVec 128) (i : Nat) :
    (assembleFields op n x y).getLsbD i =
      if i < 128 then y.getLsbD i else if i < 192 then x.getLsbD (i - 128)
      else if i < 200 then n.getLsbD (i - 192) else op.getLsbD (i - 200) := by
  simp only [assembleFields, BitVec.getLsbD_append]
  have h1 : i - 128 < 64 ↔ i < 192 ∨ i < 128 := by omega
  have h2 : i - 128 - 64 = i - 192 := by omega
  have h3 : i - 192 < 8 ↔ i < 200 := by omega
  have h4 : i - 192 - 8 = i - 200 := by omega
  by_cases a : i < 128
  · simp [a]
  · by_cases b : i < 192 <;> simp [a, b, h1, h2, h3, h4]

theorem opField_assembleFields (op n : Byte) (x : Word) (y : BitVec 128) : opField (assembleFields op n x y) = op := by
  apply BitVec.eq_of_getLsbD_eq
  intro i hi
  simp only [opField, BitVec.getLsbD_extractLsb', getLsbD_assembleFields]
  simp [hi, show ¬ 200 + i < 128 by omega, show ¬ 200 + i < 192 by omega]

theorem nField_assembleFields (op n : Byte) (x : Word) (y : BitVec 128) : nField (assembleFields op n x y) = n := by
  apply BitVec.eq_of_getLsbD_eq
  intro i hi
  simp only [nField, BitVec.getLsbD_extractLsb', getLsbD_assembleFields]
  simp [hi, show ¬ 192 + i < 128 by omega, show 192 + i < 200 by omega]

theorem xField_assembleFields (op n : Byte) (x : Word) (y : BitVec 128) : xField (assembleFields op n x y) = x := by
  apply BitVec.eq_of_getLsbD_eq
  intro i hi
  simp only [xField, BitVec.getLsbD_extractLsb', getLsbD_assembleFields]
  simp [hi, show 128 + i < 192 by omega]

theorem yField_assembleFields (op n : Byte) (x : Word) (y : BitVec 128) : yField (assembleFields op n x y) = y := by
  apply BitVec.eq_of_getLsbD_eq
  intro i hi
  simp only [yField, BitVec.getLsbD_extractLsb', getLsbD_assembleFields]
  simp [hi]

theorem yLow_eq (w : CmdWord) : yLow w = (yField w).extractLsb' 0 64 := by
  apply BitVec.eq_of_getLsbD_eq
  intro i hi
  simp [yLow, yField, hi]

theorem yHigh_eq (w : CmdWord) : yHigh w = (yField w).extractLsb' 64 64 := by
  apply BitVec.eq_of_getLsbD_eq
  intro i hi
  simp [yHigh, yField, hi]

/-- A word is the word of its fields (R81). -/
theorem assembleFields_fields (w : CmdWord) : assembleFields (opField w) (nField w) (xField w) (yField w) = w := by
  apply BitVec.eq_of_getLsbD_eq
  intro i hi
  rw [getLsbD_assembleFields]
  split
  · next h => rw [yField, BitVec.getLsbD_extractLsb']; simp [h]
  split
  · next h _ =>
    rw [xField, BitVec.getLsbD_extractLsb', show 128 + (i - 128) = i by omega]
    simp [show i - 128 < 64 by omega]
  split
  · next h _ =>
    rw [nField, BitVec.getLsbD_extractLsb', show 192 + (i - 192) = i by omega]
    simp [show i - 192 < 8 by omega]
  · next h _ =>
    rw [opField, BitVec.getLsbD_extractLsb', show 200 + (i - 200) = i by omega]
    simp [show i - 200 < 8 by omega]

/-- Two words with equal fields are equal. -/
theorem eq_of_fields {w u : CmdWord} (ho : opField w = opField u) (hn : nField w = nField u) (hx : xField w = xField u)
    (hy : yField w = yField u) : w = u := by
  rw [← assembleFields_fields w, ← assembleFields_fields u, ho, hn, hx, hy]

/-- Masking a word masks its fields. -/
theorem and_assembleFields (op op' n n' : Byte) (x x' : Word) (y y' : BitVec 128) :
    assembleFields op n x y &&& assembleFields op' n' x' y' =
      assembleFields (op &&& op') (n &&& n') (x &&& x') (y &&& y') := by
  apply BitVec.eq_of_getLsbD_eq
  intro i hi
  rw [BitVec.getLsbD_and, getLsbD_assembleFields, getLsbD_assembleFields, getLsbD_assembleFields]
  split
  · rw [BitVec.getLsbD_and]
  split
  · rw [BitVec.getLsbD_and]
  split <;> rw [BitVec.getLsbD_and]

/-- Two assembled words are equal exactly when their fields are. -/
theorem assembleFields_inj {op op' n n' : Byte} {x x' : Word} {y y' : BitVec 128} :
    assembleFields op n x y = assembleFields op' n' x' y' ↔ op = op' ∧ n = n' ∧ x = x' ∧ y = y' := by
  constructor
  · intro h
    refine ⟨?_, ?_, ?_, ?_⟩
    · simpa only [opField_assembleFields] using congrArg opField h
    · simpa only [nField_assembleFields] using congrArg nField h
    · simpa only [xField_assembleFields] using congrArg xField h
    · simpa only [yField_assembleFields] using congrArg yField h
  · rintro ⟨rfl, rfl, rfl, rfl⟩
    rfl

/-! ## The decoder, opcode by opcode (R84 to R95) -/

/-- An opcode byte is one of the nine assigned values or a reserved one (R84). -/
theorem opcode_cases (op : Byte) :
    op = 0x01 ∨ op = 0x02 ∨ op = 0x03 ∨ op = 0x04 ∨ op = 0x05 ∨ op = 0x06 ∨ op = 0x07 ∨ op = 0x08 ∨ op = 0x09 ∨
      op = 0 ∨ 0x0a ≤ op.toNat := by
  revert op
  decide

theorem decode_init {w : CmdWord} (h : opField w = 0x01) : decode w = .ok (.init (nField w) (xField w) (yField w)) := by
  rw [decode, h]
  rfl

theorem decode_absb {w : CmdWord} (h : opField w = 0x02) :
    decode w =
      if nField w = 0 ∧ xField w = 0 ∧ yHigh w = 0 then .ok (.absb (yLow w)) else .error (.fieldNotZero .absb) := by
  rw [decode, h]
  rfl

theorem decode_absw {w : CmdWord} (h : opField w = 0x03) :
    decode w = if nField w = 0 ∧ yField w = 0 then .ok (.absw (xField w)) else .error (.fieldNotZero .absw) := by
  rw [decode, h]
  rfl

theorem decode_absp {w : CmdWord} (h : opField w = 0x04) :
    decode w =
      if nField w = 0 ∧ yField w = 0 then .ok (.absp ((xField w).extractLsb' 0 32) ((xField w).extractLsb' 32 32))
      else .error (.fieldNotZero .absp) := by
  rw [decode, h]
  rfl

theorem decode_tailb {w : CmdWord} (h : opField w = 0x05) :
    decode w =
      if 8 ≤ (nField w).toNat then .error (.tailCount (nField w))
      else if xField w = 0 ∧ yHigh w = 0 then .ok (.tailb ((nField w).extractLsb' 0 3) (yLow w))
      else .error (.fieldNotZero .tailb) := by
  rw [decode, h]
  rfl

theorem decode_orw {w : CmdWord} (h : opField w = 0x06) :
    decode w = if nField w = 0 ∧ yField w = 0 then .ok (.orw (xField w)) else .error (.fieldNotZero .orw) := by
  rw [decode, h]
  rfl

theorem decode_fin {w : CmdWord} (h : opField w = 0x07) :
    decode w = if nField w = 0 ∧ xField w = 0 ∧ yField w = 0 then .ok .fin else .error (.fieldNotZero .fin) := by
  rw [decode, h]
  rfl

theorem decode_round {w : CmdWord} (h : opField w = 0x08) :
    decode w = if nField w = 0 ∧ xField w = 0 ∧ yField w = 0 then .ok .round else .error (.fieldNotZero .round) := by
  rw [decode, h]
  rfl

theorem decode_clr {w : CmdWord} (h : opField w = 0x09) :
    decode w = if nField w = 0 ∧ xField w = 0 ∧ yField w = 0 then .ok .clr else .error (.fieldNotZero .clr) := by
  rw [decode, h]
  rfl

theorem decode_reserved {w : CmdWord} (h : opField w = 0 ∨ 0x0a ≤ (opField w).toNat) :
    decode w = .error (.reservedOpcode (opField w)) := by
  have hn : (opField w).toNat = 0 ∨ 0x0a ≤ (opField w).toNat := h.imp_left fun h0 => by rw [h0]; rfl
  unfold decode
  split <;> first | omega | rfl

end Sys2Proof
end

