-- ==== Sys2Proof/Laws/State.lean ====
section
/-! SUPPORT. One lemma per field per named update, true by `rfl`. -/

namespace Sys2Proof.Machine

@[simp] theorem applyReset_eng (s : State) : (applyReset s).eng = Engine.zero := rfl
@[simp] theorem applyReset_busy (s : State) : (applyReset s).busy = 0 := rfl
@[simp] theorem applyReset_lat (s : State) : (applyReset s).lat = s.lat := rfl
@[simp] theorem applyReset_port (s : State) : (applyReset s).port = s.port := rfl

@[simp] theorem presentWord_eng (w : CmdWord) (s : State) : (presentWord w s).eng = s.eng := rfl
@[simp] theorem presentWord_busy (w : CmdWord) (s : State) : (presentWord w s).busy = 0 := rfl
@[simp] theorem presentWord_lat (w : CmdWord) (s : State) : (presentWord w s).lat = s.lat := rfl
@[simp] theorem presentWord_port (w : CmdWord) (s : State) : (presentWord w s).port = .edge true w :: s.port := rfl

@[simp] theorem reset_eng : State.reset.eng = Engine.zero := rfl
@[simp] theorem reset_busy : State.reset.busy = 0 := rfl
@[simp] theorem reset_lat : State.reset.lat = Latency.least := rfl
@[simp] theorem reset_port : State.reset.port = [] := rfl

@[simp] theorem zero_v : Engine.zero.v = ⟨0, 0, 0, 0⟩ := rfl
@[simp] theorem zero_b : Engine.zero.b = 0 := rfl
@[simp] theorem zero_dg : Engine.zero.dg = 0 := rfl
@[simp] theorem zero_ph : Engine.zero.ph = .idle := rfl
@[simp] theorem zero_err : Engine.zero.err = .ok := rfl

@[simp] theorem initEngine_v (len : Word) (key : BitVec 128) (e : Engine) :
    (initEngine len key e).v = initialPerm (keyWord0 key) (keyWord1 key) := rfl
@[simp] theorem initEngine_b (len : Word) (key : BitVec 128) (e : Engine) : (initEngine len key e).b = lengthTag len := rfl
@[simp] theorem initEngine_dg (len : Word) (key : BitVec 128) (e : Engine) : (initEngine len key e).dg = 0 := rfl
@[simp] theorem initEngine_ph (len : Word) (key : BitVec 128) (e : Engine) : (initEngine len key e).ph = .absorb := rfl
@[simp] theorem initEngine_err (len : Word) (key : BitVec 128) (e : Engine) : (initEngine len key e).err = e.err := rfl

@[simp] theorem finEngine_v (e : Engine) : (finEngine e).v = finalPerm e.b e.v := rfl
@[simp] theorem finEngine_b (e : Engine) : (finEngine e).b = e.b := rfl
@[simp] theorem finEngine_dg (e : Engine) : (finEngine e).dg = digestWord (finalPerm e.b e.v) := rfl
@[simp] theorem finEngine_ph (e : Engine) : (finEngine e).ph = .done := rfl
@[simp] theorem finEngine_err (e : Engine) : (finEngine e).err = e.err := rfl

@[simp] theorem xorV3_v0 (m : Word) (p : Perm) : (xorV3 m p).v0 = p.v0 := rfl
@[simp] theorem xorV3_v1 (m : Word) (p : Perm) : (xorV3 m p).v1 = p.v1 := rfl
@[simp] theorem xorV3_v2 (m : Word) (p : Perm) : (xorV3 m p).v2 = p.v2 := rfl
@[simp] theorem xorV3_v3 (m : Word) (p : Perm) : (xorV3 m p).v3 = p.v3 ^^^ m := rfl
@[simp] theorem xorV0_v0 (m : Word) (p : Perm) : (xorV0 m p).v0 = p.v0 ^^^ m := rfl
@[simp] theorem xorV0_v1 (m : Word) (p : Perm) : (xorV0 m p).v1 = p.v1 := rfl
@[simp] theorem xorV0_v2 (m : Word) (p : Perm) : (xorV0 m p).v2 = p.v2 := rfl
@[simp] theorem xorV0_v3 (m : Word) (p : Perm) : (xorV0 m p).v3 = p.v3 := rfl
@[simp] theorem xorV2_v0 (m : Word) (p : Perm) : (xorV2 m p).v0 = p.v0 := rfl
@[simp] theorem xorV2_v1 (m : Word) (p : Perm) : (xorV2 m p).v1 = p.v1 := rfl
@[simp] theorem xorV2_v2 (m : Word) (p : Perm) : (xorV2 m p).v2 = p.v2 ^^^ m := rfl
@[simp] theorem xorV2_v3 (m : Word) (p : Perm) : (xorV2 m p).v3 = p.v3 := rfl

@[simp] theorem initialPerm_v0 (k0 k1 : Word) : (initialPerm k0 k1).v0 = 0x736f6d6570736575 ^^^ k0 := rfl
@[simp] theorem initialPerm_v1 (k0 k1 : Word) : (initialPerm k0 k1).v1 = 0x646f72616e646f6d ^^^ k1 := rfl
@[simp] theorem initialPerm_v2 (k0 k1 : Word) : (initialPerm k0 k1).v2 = 0x6c7967656e657261 ^^^ k0 := rfl
@[simp] theorem initialPerm_v3 (k0 k1 : Word) : (initialPerm k0 k1).v3 = 0x7465646279746573 ^^^ k1 := rfl

end Sys2Proof.Machine
end

