-- ==== Sys2Proof/Laws/Ops.lean ====
section
/-! SUPPORT. For each shared operation, once, everything it can do. -/

namespace Sys2Proof.Machine

/-! ## Errors and the common checks -/

/-- Error entry writes `err` and nothing else (R226). -/
theorem raise_eq (c : ErrCode) (s : State) : raise c s = .next { s with eng := { s.eng with err := c } } := rfl

theorem onEngine_eq (f : Engine → Engine) (s : State) : onEngine f s = .next { s with eng := f s.eng } := rfl

theorem discard_eq (s : State) : discard s = .next { s with eng := Engine.zero } := rfl

theorem unlessFrozen_of_ok {act : State → Result} {s : State} (h : s.eng.err = .ok) : unlessFrozen act s = act s :=
  if_pos h

theorem unlessFrozen_of_frozen {act : State → Result} {s : State} (h : s.eng.err ≠ .ok) :
    unlessFrozen act s = .next s :=
  if_neg h

theorem inPhase_of_mem {legal : List Phase} {act : State → Result} {s : State} (h : s.eng.ph ∈ legal) :
    inPhase legal act s = act s :=
  if_pos h

theorem inPhase_of_not_mem {legal : List Phase} {act : State → Result} {s : State} (h : s.eng.ph ∉ legal) :
    inPhase legal act s = .next { s with eng := { s.eng with err := .sequence } } :=
  if_neg h

/-- The shape of every command but `INIT` and `CLR`: ignored while frozen, the change of the engine in a legal phase,
`SequenceError` in the others. -/
theorem guarded_cases (legal : List Phase) (f : Engine → Engine) (s : State) :
    (s.eng.err ≠ .ok ∧ unlessFrozen (inPhase legal (onEngine f)) s = .next s) ∨
    (s.eng.err = .ok ∧ s.eng.ph ∈ legal ∧
      unlessFrozen (inPhase legal (onEngine f)) s = .next { s with eng := f s.eng }) ∨
    (s.eng.err = .ok ∧ s.eng.ph ∉ legal ∧
      unlessFrozen (inPhase legal (onEngine f)) s = .next { s with eng := { s.eng with err := .sequence } }) := by
  by_cases he : s.eng.err = .ok
  · by_cases hp : s.eng.ph ∈ legal
    · exact .inr (.inl ⟨he, hp, by rw [unlessFrozen_of_ok he, inPhase_of_mem hp, onEngine_eq]⟩)
    · exact .inr (.inr ⟨he, hp, by rw [unlessFrozen_of_ok he, inPhase_of_not_mem hp]⟩)
  · exact .inl ⟨he, unlessFrozen_of_frozen he⟩

/-- An ill-formed word is ignored while frozen and raises `IllegalCommand` otherwise (R97 steps 1 and 2). -/
theorem illegalWord_eq (s : State) :
    illegalWord s = if s.eng.err = .ok then .next { s with eng := { s.eng with err := .illegal } } else .next s := rfl

/-! ## Acceptance and the port -/

theorem acceptWord_of_ok {w : CmdWord} {i : Instr} (h : decode w = .ok i) (s : State) : acceptWord w s = exec i s := by
  simp only [acceptWord, h]

theorem acceptWord_of_error {w : CmdWord} {r : DecodeError} (h : decode w = .error r) (s : State) :
    acceptWord w s = illegalWord s := by
  simp only [acceptWord, h]

/-- Every event at the pins, once (R72, R237, R260). -/
theorem portStep_cases (s : State) :
    (s.port = [] ∧ portStep s = .next s) ∨
    (∃ rest, s.port = .reset :: rest ∧ portStep s = .next (applyReset { s with port := rest })) ∨
    (∃ w rest, s.port = .edge true w :: rest ∧ s.busy = 0 ∧
      portStep s = acceptWord w { s with port := rest, busy := latencyOf w { s with port := rest } }) ∨
    (∃ w rest, s.port = .edge false w :: rest ∧ s.busy = 0 ∧ portStep s = .next { s with port := rest }) ∨
    (∃ valid w rest, s.port = .edge valid w :: rest ∧ s.busy ≠ 0 ∧
      portStep s = .next { s with port := rest, busy := s.busy - 1 }) := by
  rcases hp : s.port with _ | ⟨_ | ⟨valid, w⟩, rest⟩
  · exact .inl ⟨rfl, by simp [portStep, hp]⟩
  · exact .inr (.inl ⟨rest, rfl, by simp [portStep, hp]⟩)
  · by_cases hb : s.busy = 0
    · cases valid
      · exact .inr (.inr (.inr (.inl ⟨w, rest, rfl, hb, by simp [portStep, hp, takeEdge, hb]⟩)))
      · exact .inr (.inr (.inl ⟨w, rest, rfl, hb, by simp [portStep, hp, takeEdge, hb]⟩))
    · exact .inr (.inr (.inr (.inr ⟨valid, w, rest, rfl, hb, by simp [portStep, hp, takeEdge, hb]⟩)))

/-- The latency of a word does not depend on what is still on the port or on the handshake. -/
theorem latencyOf_congr (w : CmdWord) {s t : State} (he : s.eng.err = t.eng.err) (hl : s.lat = t.lat) :
    latencyOf w s = latencyOf w t := by
  simp only [latencyOf, he, hl]

/-- `runSteps` is the host's `run` of this machine. -/
theorem core_run_eq (k : Nat) (s : State) : Host.Core.run Sys2Proof.core k s = runSteps k s := by
  induction k generalizing s with
  | zero => rfl
  | succ k ih =>
    rcases h : step s with t | r | r <;> have h' : Sys2Proof.core.step s = _ := h
    · simp only [Host.Core.run, h', runSteps, h]
      exact ih t
    · cases r
    · simp only [Host.Core.run, h', runSteps, h]
      rfl

end Sys2Proof.Machine
end

