-- ==== Sys2Proof/Laws/PerInstr.lean ====
section
/-! SUPPORT. Statements about every command, one lemma per constructor. -/

namespace Sys2Proof.Laws

/-- The word of a command carries the opcode of its mnemonic in `OP` (30_encoding.md R84). -/
def EncodedOpcode.Statement (i : Instr) : Prop := opField (encode i) = i.mnemonic.opcode

theorem EncodedOpcode.init (klen : Byte) (len : Word) (key : BitVec 128) : EncodedOpcode.Statement (.init klen len key) :=
  opField_assembleFields _ _ _ _

theorem EncodedOpcode.absb (bytes : Word) : EncodedOpcode.Statement (.absb bytes) := opField_assembleFields _ _ _ _

theorem EncodedOpcode.absw (m : Word) : EncodedOpcode.Statement (.absw m) := opField_assembleFields _ _ _ _

theorem EncodedOpcode.absp (first second : BitVec 32) : EncodedOpcode.Statement (.absp first second) :=
  opField_assembleFields _ _ _ _

theorem EncodedOpcode.tailb (cnt : BitVec 3) (bytes : Word) : EncodedOpcode.Statement (.tailb cnt bytes) :=
  opField_assembleFields _ _ _ _

theorem EncodedOpcode.orw (c : Word) : EncodedOpcode.Statement (.orw c) := opField_assembleFields _ _ _ _

theorem EncodedOpcode.fin : EncodedOpcode.Statement .fin := opField_assembleFields _ _ _ _

theorem EncodedOpcode.round : EncodedOpcode.Statement .round := opField_assembleFields _ _ _ _

theorem EncodedOpcode.clr : EncodedOpcode.Statement .clr := opField_assembleFields _ _ _ _

end Sys2Proof.Laws
end

