-- ==== Sys2Proof/Laws/Runs.lean ====
section
/-! SUPPORT. Runs of words and of steps: how a longer run is made of shorter ones, and the words of an entry point. -/

namespace Sys2Proof.Machine

@[simp] theorem programWords_nil : programWords [] = [] := rfl
@[simp] theorem programWords_cons (i : Instr) (is : List Instr) :
    programWords (i :: is) = encode i :: programWords is := rfl
@[simp] theorem programWords_append (is js : List Instr) :
    programWords (is ++ js) = programWords is ++ programWords js := List.map_append
@[simp] theorem runWords_nil (s : State) : runWords [] s = .next s := rfl
@[simp] theorem chunkCommands_zero (bs : List Byte) : chunkCommands 0 bs = [] := rfl
theorem chunkCommands_succ (q : Nat) (bs : List Byte) :
    chunkCommands (q + 1) bs = .absb (laneField 64 (bs.take 8)) :: chunkCommands q (bs.drop 8) := rfl

/-- A run whose first word answers a next state goes on from there. -/
theorem runWords_cons_of_next {w : CmdWord} {s t : State} (h : acceptWord w s = .next t) (ws : List CmdWord) :
    runWords (w :: ws) s = runWords ws t := by
  simp only [runWords, h]

/-- A run of two lists in a row. -/
theorem runWords_append {us : List CmdWord} {s t : State} (h : runWords us s = .next t) (ws : List CmdWord) :
    runWords (us ++ ws) s = runWords ws t := by
  induction us generalizing s with
  | nil => injection h with h; rw [h]; rfl
  | cons u us ih =>
    rcases hu : acceptWord u s with a | a | a <;> simp only [runWords, hu] at h
    · rw [List.cons_append, runWords_cons_of_next hu]
      exact ih h
    · cases h
    · cases h

/-- A run of steps whose first step answers a next state goes on from there. -/
theorem runSteps_succ_of_next {s t : State} (h : step s = .next t) (k : Nat) :
    runSteps (k + 1) s = runSteps k t := by
  simp only [runSteps, h]

/-- The driver states 16 for the 16-byte keys and for no other key (R200). -/
theorem klenFor_eq_sixteen_iff (key : List Byte) : klenFor key = 16 ↔ key.length = 16 := by
  have hk := (Config.longKeyChoice key).isLt
  rw [klenFor, ← BitVec.toNat_inj, show (16 : Byte).toNat = 16 from rfl]
  split
  · simp only [BitVec.toNat_ofNat]
    omega
  · simp only [BitVec.toNat_ofNat]
    split <;> omega

/-- The true length, where 8 bits hold it (R200). -/
theorem klenFor_of_lt {key : List Byte} (h : key.length < 256) : klenFor key = BitVec.ofNat 8 key.length := if_pos h

/-- A call whose run, and whose follow-up, end in next states. -/
theorem callEntry_of_next {c : Bool} {p : List Instr} {s t u : State} (h : runWords (programWords p) s = .next t)
    (hf : runWords (programWords (followUp c (driverResult (outputs t.eng)))) t = .next u) :
    callEntry c p s = some (driverResult (outputs t.eng), u) := by
  simp only [callEntry, h, hf]

end Sys2Proof.Machine
end

