-- ==== Sys2Proof/Tests/Slice0.lean ====
section
/-! SUPPORT. Tests of the model, every expected value taken from spec/ (30_encoding.md R100, 95_test_vectors.md,
96_error_vectors.md), and a concrete witness for the hypotheses of every obligation that has hypotheses. -/

namespace Sys2Proof.Tests

open Sys2Proof.Machine

/-! ## States and words of 96_error_vectors.md -/

/-- The reset state with the given architectural state. -/
def withEngine (e : Engine) : State := { State.reset with eng := e }

/-- `S_ABS`: after `INIT 16, 15, K`. -/
def absState : State := withEngine
  { v := ⟨0x736e6f6674766372, 0x6c66786a62696162, 0x6c7865666a607466, 0x7c6c6e6975796b7c⟩
    b := 0x0f00000000000000, dg := 0, ph := .absorb, err := .ok }

/-- `S_TAIL`. -/
def tailState : State := withEngine
  { v := ⟨0xe6c6568ed87e2577, 0x2e66619568d7bba6, 0xaef47c2e7611d400, 0x74f9432f37099cf8⟩
    b := 0x0f0e0d0c0b0a0908, dg := 0, ph := .tail, err := .ok }

/-- `S_DONE`. -/
def doneState : State := withEngine
  { v := ⟨0x31e4872797bd4ad7, 0xdd35c539dbfe5026, 0x8a7441931489a043, 0xf0f9ab59c621b5a6⟩
    b := 0x0f0e0d0c0b0a0908, dg := 0x965ca8d49eeb0f14, ph := .done, err := .ok }

/-- `S_FRZ`. -/
def frozenState : State := withEngine { doneState.eng with err := .sequence }

def initWord : CmdWord := 0x0110000000000000000f0f0e0d0c0b0a09080706050403020100#208
def finWord : CmdWord := 0x0700000000000000000000000000000000000000000000000000#208
def clrWord : CmdWord := 0x0900000000000000000000000000000000000000000000000000#208
def zeroWord : CmdWord := 0x0000000000000000000000000000000000000000000000000000#208
def standardKey : List Byte := [0, 1, 2, 3, 4, 5, 6, 7, 8, 9, 10, 11, 12, 13, 14, 15]

/-- The engine after a word is accepted. -/
def after (w : CmdWord) (s : State) : Option Engine :=
  match acceptWord w s with
  | .next t => some t.eng
  | _ => none

/-- The words the assembler makes of a line are those of the spec. -/
def line (text : String) : Option CmdWord := assembleLine text.toList

/-! ## Decoding: the printed words of R100 -/

theorem test_decode_init : decode 0x0110000000000000000f0f0e0d0c0b0a09080706050403020100#208 =
    .ok (.init 16 15 0x0f0e0d0c0b0a09080706050403020100) := by decide
theorem test_decode_absb : decode 0x0200000000000000000000000000000000000706050403020100#208 =
    .ok (.absb 0x0706050403020100) := by decide
theorem test_decode_absw : decode 0x0300070605040302010000000000000000000000000000000000#208 =
    .ok (.absw 0x0706050403020100) := by decide
theorem test_decode_absp : decode 0x0400070605040302010000000000000000000000000000000000#208 =
    .ok (.absp 0x03020100 0x07060504) := by decide
theorem test_decode_tailb : decode 0x05030000000000000000000000000000000000000000000a0908#208 =
    .ok (.tailb 3 0x0a0908) := by decide
theorem test_decode_orw : decode 0x060000000000deadbeef00000000000000000000000000000000#208 =
    .ok (.orw 0xdeadbeef) := by decide
theorem test_decode_fin : decode finWord = .ok .fin := by decide
theorem test_decode_round : decode 0x0800000000000000000000000000000000000000000000000000#208 = .ok .round := by decide
theorem test_decode_clr : decode clrWord = .ok .clr := by decide
theorem test_encode_init : encode (.init 16 15 0x0f0e0d0c0b0a09080706050403020100) =
    0x0110000000000000000f0f0e0d0c0b0a09080706050403020100#208 := by decide
theorem test_encode_tailb :
    encode (.tailb 3 0x0a0908) = 0x05030000000000000000000000000000000000000000000a0908#208 := by decide
theorem test_table_word : decodeTableWord 208 (0x07 <<< 200) = some .fin := by decide

/-! ## Ill-formed words: each check refuses, and the decoder names the cause (96_error_vectors.md) -/

/-- The word is no well-formed word, and the decoder says why. -/
def refusedAs (w : CmdWord) (e : DecodeError) : Prop := wellFormed w = false ∧ decode w = .error e

theorem test_refuse_op_00 : refusedAs zeroWord (.reservedOpcode 0) := by unfold refusedAs; decide
theorem test_refuse_op_0a : refusedAs 0x0a00000000000000000000000000000000000000000000000000#208 (.reservedOpcode 0x0a) := by
  unfold refusedAs; decide
theorem test_refuse_all_ones :
    refusedAs 0xffffffffffffffffffffffffffffffffffffffffffffffffffff#208 (.reservedOpcode 0xff) := by
  unfold refusedAs; decide
theorem test_refuse_fin_n : refusedAs 0x0701000000000000000000000000000000000000000000000000#208 (.fieldNotZero .fin) := by
  unfold refusedAs; decide
theorem test_refuse_fin_y : refusedAs 0x0700000000000000000000000000000000000000000000000001#208 (.fieldNotZero .fin) := by
  unfold refusedAs; decide
theorem test_refuse_absb_yhigh :
    refusedAs 0x0200000000000000000000000000000000010000000000000000#208 (.fieldNotZero .absb) := by
  unfold refusedAs; decide
theorem test_refuse_absb_x : refusedAs 0x0200000000000000000100000000000000000000000000000000#208 (.fieldNotZero .absb) := by
  unfold refusedAs; decide
theorem test_refuse_absb_n : refusedAs 0x0201000000000000000000000000000000000000000000000000#208 (.fieldNotZero .absb) := by
  unfold refusedAs; decide
theorem test_refuse_absw_y : refusedAs 0x0300000000000000000000000000000000000000000000000001#208 (.fieldNotZero .absw) := by
  unfold refusedAs; decide
theorem test_refuse_absw_n : refusedAs 0x0310000000000000000000000000000000000000000000000000#208 (.fieldNotZero .absw) := by
  unfold refusedAs; decide
theorem test_refuse_absp_y : refusedAs 0x0400000000000000000080000000000000000000000000000000#208 (.fieldNotZero .absp) := by
  unfold refusedAs; decide
theorem test_refuse_tailb_n8 : refusedAs 0x0508000000000000000000000000000000000000000000000000#208 (.tailCount 8) := by
  unfold refusedAs; decide
theorem test_refuse_tailb_n83 : refusedAs 0x0583000000000000000000000000000000000000000000000000#208 (.tailCount 0x83) := by
  unfold refusedAs; decide
theorem test_refuse_tailb_x :
    refusedAs 0x0500000000000000000100000000000000000000000000000000#208 (.fieldNotZero .tailb) := by
  unfold refusedAs; decide
theorem test_refuse_tailb_yhigh :
    refusedAs 0x0500000000000000000080000000000000000000000000000000#208 (.fieldNotZero .tailb) := by
  unfold refusedAs; decide
theorem test_refuse_orw_n : refusedAs 0x0601000000000000000000000000000000000000000000000000#208 (.fieldNotZero .orw) := by
  unfold refusedAs; decide
theorem test_refuse_orw_y : refusedAs 0x0600000000000000000000000000000000000000000000000001#208 (.fieldNotZero .orw) := by
  unfold refusedAs; decide
theorem test_refuse_round_x :
    refusedAs 0x0800800000000000000000000000000000000000000000000000#208 (.fieldNotZero .round) := by
  unfold refusedAs; decide
theorem test_refuse_clr_y : refusedAs 0x0900000000000000000000000000000000000000000000000001#208 (.fieldNotZero .clr) := by
  unfold refusedAs; decide
theorem test_refuse_clr_n : refusedAs 0x0901000000000000000000000000000000000000000000000000#208 (.fieldNotZero .clr) := by
  unfold refusedAs; decide

/-! ## One command (95_test_vectors.md sections 2 to 6) -/

theorem test_init_row1 : after initWord State.reset = some absState.eng := by decide
theorem test_init_tag_of_2_63 : (after 0x011080000000000000000f0e0d0c0b0a09080706050403020100#208 doneState).map (·.b) =
    some 0 := by decide
theorem test_absb_row1 : (after 0x0200000000000000000000000000000000000706050403020100#208 absState).map (·.v) =
    some tailState.eng.v := by decide
theorem test_absb_row10 : (after 0x0200000000000000000000000000000000000100000000000000#208 absState).map (·.v) =
    some ⟨0xf8ae80b7c7756a02, 0x401efc5978e097e9, 0xb64fe2ae1e2d1794, 0x43b9f0f9bae6fcd7⟩ := by decide
theorem test_absw_row11 : (after 0x0300800000000000000000000000000000000000000000000000#208 absState).map (·.v) =
    some ⟨0xf69de1b791864802, 0xff1efc48b930a5c9, 0x555fd08ea12d1784, 0xcc8d53ddac057cd3⟩ := by decide
theorem test_absp_row12 : (after 0x0400ffffffff0000000000000000000000000000000000000000#208 absState).map (·.v) =
    some ⟨0xa3a016b8fd28f218, 0x33e286ce5d4075d4, 0x1122c0bc7e4d6d03, 0xd3f270edb5371f13⟩ := by decide
theorem test_absp_row13 : (after 0x040000000000ffffffff00000000000000000000000000000000#208 absState).map (·.v) =
    some ⟨0xb42f84a2ac56de2c, 0xf0b74c63bd0d2645, 0x362253021ebf9bd7, 0x3f47726d76e7f0bd⟩ := by decide
theorem test_tailb_ignored_lanes : after 0x0505000000000000000000000000000000008877665544332211#208 absState =
    some { absState.eng with b := 0x0f00005544332211, ph := .tail } := by decide
theorem test_tailb_seven_bytes : (after 0x0507000000000000000000000000000000000077665544332211#208 absState).map (·.b) =
    some 0x0f77665544332211 := by decide
theorem test_orw_into_tag :
    (after 0x0600010000000000000000000000000000000000000000000000#208
      (withEngine { absState.eng with b := 0x0400000000000000 })).map (·.b) = some 0x0500000000000000 := by decide
theorem test_fin_example : after finWord tailState = some doneState.eng := by decide
theorem test_fin_outputs : outputs doneState.eng = ⟨0x140feb9ed4a85c96, true, 3, false⟩ := by decide
theorem test_round_example : (after 0x0800000000000000000000000000000000000000000000000000#208 absState).map (·.v) =
    some ⟨0x5d6d6b8b947a8b5e, 0xae858a8ac87d4889, 0xdacd693af9be7f6d, 0x8bbbff3fe5aa5aea⟩ := by decide
theorem test_round_out_of_phase : after 0x0800000000000000000000000000000000000000000000000000#208 doneState =
    some frozenState.eng := by decide
theorem test_clr_thaws : after clrWord frozenState = some Engine.zero := by decide
theorem test_clr_ill_formed : after 0x0900000000000000000000000000000000000000000000000001#208 frozenState =
    some frozenState.eng := by decide

/-! ## Steps, entry points, assembler text -/

/-- `withFetchWord` presents the word, and the next step accepts it. -/
theorem test_fetch_and_step :
    step (State.reset.withFetchWord 208 0x0110000000000000000f0f0e0d0c0b0a09080706050403020100) = .next absState := by rfl

/-- The empty input (95_test_vectors.md S9). -/
theorem test_reference_empty : Reference.digest standardKey [] = [0x48, 0xdd, 0x3a, 0x16, 0xb9, 0xa4, 0x40, 0xc3] := by
  decide

/-- The 15-byte message 00 .. 0e (44_final.md R185). -/
theorem test_reference_fifteen : Reference.digest standardKey [0, 1, 2, 3, 4, 5, 6, 7, 8, 9, 10, 11, 12, 13, 14] =
    [0x96, 0x5c, 0xa8, 0xd4, 0x9e, 0xeb, 0x0f, 0x14] := by decide

theorem test_digest_1x32 : digest1x32Program standardKey 0xdeadbeef =
    some [.init 16 4 0x0f0e0d0c0b0a09080706050403020100, .orw 0xdeadbeef, .fin] := by decide
theorem test_hex_view : hexView (be64Bytes 0x0123456789abcdef) = "0123456789abcdef".toList := by decide
theorem test_line_init : line "INIT 16, 15, [00 01 02 03 04 05 06 07 08 09 0a 0b 0c 0d 0e 0f]" =
    some 0x0110000000000000000f0f0e0d0c0b0a09080706050403020100#208 := by decide
theorem test_line_tailb : line "TAILB 3, [08 09 0a] ; the last bytes" =
    some 0x05030000000000000000000000000000000000000000000a0908#208 := by decide
theorem test_line_range : line "ABSP 0x100000000, 0" = none := by decide

/-! ## Witnesses: the hypotheses of each obligation are met by a concrete state and operands -/

theorem witness_EncodeOfDecode : ∃ w i, decode w = .ok i := ⟨finWord, .fin, by decide⟩

theorem witness_MatchAndMask : ∃ (w : CmdWord) (r r' : OpcodeRow), r ∈ opcodeTable ∧ r' ∈ opcodeTable ∧
    w &&& r.mask = r.pattern ∧ w &&& r'.mask = r'.pattern :=
  ⟨clrWord, ⟨.clr, clrWord, 0xffffffffffffffffffffffffffffffffffffffffffffffffffff#208⟩,
    ⟨.clr, clrWord, 0xffffffffffffffffffffffffffffffffffffffffffffffffffff#208⟩, by decide⟩

/-- The least and the greatest rotation, the lowest and the highest bit. -/
theorem witness_RotationMovesEveryBit : (1 ≤ 1 ∧ 1 ≤ 63 ∧ 0 < 64 ∧ (rotl64 1 1).getLsbD 1 = true) ∧
    (1 ≤ 63 ∧ 63 ≤ 63 ∧ 63 < 64 ∧ (rotl64 0x8000000000000000 63).getLsbD 62 = true) := by decide

theorem witness_InitCompletes : doneState.eng.err = .ok := by decide

/-- Lengths that agree modulo 256 (0 and 2^64 - 256) and lengths that do not (255 and 256). -/
theorem witness_LengthTagIsTheLowByte :
    (∃ t, State.reset.eng.err = .ok ∧ exec (.init 16 0 0) State.reset = .next t) ∧
    (0xffffffffffffff00 : Word).toNat % 256 = (0 : Word).toNat % 256 ∧
    (255 : Word).toNat % 256 ≠ (256 : Word).toNat % 256 := ⟨⟨_, by decide, rfl⟩, by decide, by decide⟩

theorem witness_KeysNeverZeroAllWords :
    (State.reset.eng.err = .ok ∧ (0 : BitVec 128) = 0) ∧
    (doneState.eng.err = .ok ∧ keyWord0 0x6d6f646e61726f6475657370656d6f73 = 0x736f6d6570736575 ∧
      keyWord1 0x6d6f646e61726f6475657370656d6f73 = 0x646f72616e646f6d) ∧
    keyWord0 ((bswap64 0x6c7967656e657261).setWidth 128) = 0x6c7967656e657261 ∧
    keyWord1 ((bswap64 0x7465646279746573).setWidth 128 <<< 64) = 0x7465646279746573 := by decide

/-- Also the boundary words of the packed pair. -/
theorem witness_AbsorbCommandsComplete : absState.eng.err = .ok ∧ absState.eng.ph = .absorb ∧
    (0xffffffff00000000 : Word) = ((0xffffffff : BitVec 32).setWidth 64 <<< 32) ||| (0 : BitVec 32).setWidth 64 ∧
    (0x00000000ffffffff : Word) = ((0 : BitVec 32).setWidth 64 <<< 32) ||| (0xffffffff : BitVec 32).setWidth 64 := by
  decide

theorem witness_RoundCompletes : absState.eng.err = .ok ∧ absState.eng.ph = .absorb := by decide

theorem witness_FoldCommandsComplete : absState.eng.err = .ok ∧ absState.eng.ph = .absorb := by decide

/-- One trailing byte and seven, with garbage above. -/
theorem witness_TrailingBytesAreLittleEndian :
    (1 ≤ [0x11#8].length ∧ [0x11#8].length ≤ 7 ∧ ∀ i, i < 1 → [0x11#8][i]? = some (lane (0x8877665544332211 : Word) i)) ∧
    (1 ≤ [0x11#8, 0x22, 0x33, 0x44, 0x55, 0x66, 0x77].length ∧ [0x11#8, 0x22, 0x33, 0x44, 0x55, 0x66, 0x77].length ≤ 7 ∧
      ∀ i, i < 7 → [0x11#8, 0x22, 0x33, 0x44, 0x55, 0x66, 0x77][i]? = some (lane (0x8877665544332211 : Word) i)) := by decide

/-- `CNT` 0, 3 and 7. -/
theorem witness_UnusedTailLanesAreIgnored :
    (∀ i, i < (0 : BitVec 3).toNat → lane (0 : Word) i = lane (0xffffffffffffffff : Word) i) ∧
    (∀ i, i < (3 : BitVec 3).toNat → lane (0x332211 : Word) i = lane (0x8877665544332211 : Word) i) ∧
    (∀ i, i < (7 : BitVec 3).toNat → lane (0x77665544332211 : Word) i = lane (0x8877665544332211 : Word) i) := by decide

theorem witness_TailbKeepsTheLengthTag :
    (∃ t, exec (.tailb 7 0x8877665544332211) absState = .next t) ∧
    (∃ t, exec (.tailb 7 0) frozenState = .next t) ∧
    (absState.eng.err = .ok ∧ absState.eng.ph = .absorb ∧ EngineInv absState.eng) :=
  ⟨⟨_, rfl⟩, ⟨_, rfl⟩, by unfold EngineInv; decide⟩

/-- Also messages of 8 and of 9 bytes. -/
theorem witness_EmptyTailOnlyMovesThePhase : absState.eng.err = .ok ∧ absState.eng.ph = .absorb ∧
    (Instr.absb 0).mnemonic = .absb ∧ (Instr.absw 0).mnemonic = .absw ∧ (Instr.absp 0 0).mnemonic = .absp ∧
    (.absb 0x0706050403020100 ∈ byteCommands (standardKey.take 8) ∧ (standardKey.take 8).length % 8 = 0) ∧
    .tailb 1 8 ∈ byteCommands (standardKey.take 9) := by decide

/-- The state and the operand of the rule's example. -/
theorem witness_OrwDoesNotMask :
    (withEngine { absState.eng with b := 0x0400000000000000 }).eng.err = .ok ∧
    (withEngine { absState.eng with b := 0x0400000000000000 }).eng.ph = .absorb ∧
    (withEngine { absState.eng with b := 0x0400000000000000 }).eng.b = 0x0400000000000000 := by decide

/-- The greatest operands of both ranges, and each mnemonic. -/
theorem witness_OrwAndTailbMeet :
    (0x00ffffffffffffff : Word).toNat < 2 ^ 56 ∧ (0xffffffff : Word).toNat < 2 ^ 32 ∧
    (Instr.orw 0).mnemonic = .orw ∧ (Instr.tailb 0 0).mnemonic = .tailb ∧
    absState.eng.err = .ok ∧ absState.eng.ph = .absorb ∧ EngineInv absState.eng := by unfold EngineInv; decide

theorem witness_FinCompletes : (absState.eng.err = .ok ∧ absState.eng.ph = .absorb) ∧
    (tailState.eng.err = .ok ∧ tailState.eng.ph = .tail) := by decide

theorem witness_ClrCompletes : opField 0x0900000000000000000000000000000000000000000000000001#208 = 0x09 ∧
    0x0900000000000000000000000000000000000000000000000001#208 ≠ clrWord ∧ frozenState.eng.err ≠ .ok ∧
    (State.reset.eng.err = .ok ∧ State.reset.eng.ph = .idle ∧ EngineInv State.reset.eng) ∧
    ∃ t, exec .clr frozenState = .next t :=
  ⟨by decide, by decide, by decide, by unfold EngineInv; decide, _, rfl⟩

/-- Every command in a state where it has its own effect, and one out of phase. -/
theorem witness_CommandsWriteOnlyTheirState :
    (∀ i ∈ [Instr.init 16 0 0, .absb 1, .absw 1, .absp 1 2, .round, .tailb 3 1, .orw 1, .fin, .clr],
      (match exec i absState with | .next t => t.eng.err == .ok | _ => false) = true) ∧
    ∃ t, exec .fin State.reset = .next t ∧ t.eng.err = .sequence := ⟨by decide, _, rfl, rfl⟩

/-- An ill-formed word, a command out of phase, a wrong key length, a command that executes. -/
theorem witness_ErrorsHaveExactlyTheirCauses : State.reset.eng.err = .ok ∧
    (∃ t, acceptWord zeroWord State.reset = .next t ∧ t.eng.err = .illegal) ∧
    (∃ t, acceptWord finWord State.reset = .next t ∧ t.eng.err = .sequence) ∧
    (∃ t, acceptWord 0x010f000000000000000f0f0e0d0c0b0a09080706050403020100#208 State.reset = .next t ∧
      t.eng.err = .keylen) ∧
    (∃ t, acceptWord initWord State.reset = .next t ∧ t.eng.err = .ok) :=
  ⟨rfl, ⟨_, rfl, rfl⟩, ⟨_, rfl, rfl⟩, ⟨_, rfl, rfl⟩, ⟨_, rfl, rfl⟩⟩

theorem witness_FrozenEngineObeysOnlyClr : frozenState.eng.err ≠ .ok ∧
    clrWord = 0x0900000000000000000000000000000000000000000000000000#208 ∧
    finWord ≠ 0x0900000000000000000000000000000000000000000000000000#208 ∧
    (presentWord finWord frozenState).busy = 0 ∧ (presentWord finWord frozenState).port = [.edge true finWord] := by decide

/-- A command in each of the three outcomes of the table. -/
theorem witness_PhaseTableDecidesEveryCommand : State.reset.eng.err = .ok ∧
    (decode clrWord = .ok .clr ∧ phaseTable .clr .idle = .goesTo .idle) ∧
    (decode finWord = .ok .fin ∧ phaseTable .fin .idle = .seq) ∧
    (decode 0x010f000000000000000f0f0e0d0c0b0a09080706050403020100#208 =
        .ok (.init 15 15 0x0f0e0d0c0b0a09080706050403020100) ∧
      phaseTable (.init 15 15 0x0f0e0d0c0b0a09080706050403020100) .idle = .keyLength) := by decide

/-- A frozen engine that ignores a `FIN`, and one that a `CLR` thaws. -/
theorem witness_ErrorLatchIsSticky : frozenState.eng.err ≠ .ok ∧
    (∃ t, step (presentWord finWord frozenState) = .next t ∧ t.eng = frozenState.eng) ∧
    (nextAction (presentWord clrWord frozenState) = some (.word clrWord) ∧
      ∃ t, step (presentWord clrWord frozenState) = .next t ∧ t.eng = Engine.zero) ∧
    (nextAction { frozenState with port := [.reset] } = some .reset ∧
      ∃ t, step { frozenState with port := [.reset] } = .next t ∧ t.eng = Engine.zero) :=
  ⟨by decide, ⟨_, rfl, rfl⟩, ⟨rfl, _, rfl, rfl⟩, ⟨rfl, _, rfl, rfl⟩⟩

theorem witness_DigestPortIsBigEndian : dvalid doneState.eng = true ∧ 7 < 8 ∧ dvalid frozenState.eng = false ∧
    (nextAction doneState = none ∧ ∃ t, step doneState = .next t) ∧
    (nextAction (presentWord finWord doneState) ≠ none ∧ ∃ t, step (presentWord finWord doneState) = .next t) :=
  ⟨by decide, by decide, by decide, ⟨by decide, _, rfl⟩, ⟨by decide, _, rfl⟩⟩

theorem witness_StatusShowsPhaseAndError :
    statusWord { Engine.zero with b := 1, ph := .tail, err := .keylen } =
      statusWord { Engine.zero with ph := .tail, err := .keylen } := by decide

/-- In the middle of a command, frozen. -/
theorem witness_ResetFromAnyState :
    ({ frozenState with busy := 3, port := [.reset, .edge true finWord] } : State).port = [.reset, .edge true finWord] := rfl

theorem witness_StepRunsTheDecodedCommand :
    (presentWord finWord tailState).busy = 0 ∧ (presentWord finWord tailState).port = [.edge true finWord] ∧
    decode finWord = .ok .fin ∧ decode zeroWord = .error (.reservedOpcode 0) := by decide

theorem witness_IdleEdgesKeepTheState :
    State.reset.port = [] ∧
    (({ State.reset with port := [.edge false finWord] } : State).port = [.edge false finWord] ∧ State.reset.busy = 0) ∧
    (({ tailState with busy := 1, port := [.edge true finWord] } : State).port = [.edge true finWord] ∧ (1 : Nat) ≠ 0) := by
  decide

/-- With edges left over, and with exactly as many as the command needs. -/
theorem witness_ReadyAgainAfterTheLatency :
    (({ tailState with busy := 2, port := [.edge true finWord, .reset] } : State).port =
      [(true, finWord)].map (fun e => PortEvent.edge e.1 e.2) ++ [.reset] ∧ [(true, finWord)].length ≤ 2) ∧
    (({ tailState with busy := 1, port := [.edge false finWord] } : State).port =
      [(false, finWord)].map (fun e => PortEvent.edge e.1 e.2) ++ [] ∧ [(false, finWord)].length ≤ 1) := by decide

/-- Two `INIT` words with different keys, an ill-formed word, a frozen engine with a word that is not `CLR`. -/
theorem witness_LatencyIgnoresData : State.reset.lat = doneState.lat ∧ State.reset.eng.err = .ok ∧
    doneState.eng.err = .ok ∧ wellFormed initWord = true ∧
    wellFormed 0x010f000000000000000000000000000000000000000000000000#208 = true ∧
    opField initWord = opField 0x010f000000000000000000000000000000000000000000000000#208 ∧
    wellFormed zeroWord = false ∧ (frozenState.eng.err ≠ .ok ∧ finWord ≠ clrWord) := by decide

theorem witness_EveryStepKeepsTheInvariant : EngineInv tailState.eng ∧ EngineInv doneState.eng ∧
    ∃ t, step (presentWord finWord tailState) = .next t ∧ t.eng = doneState.eng :=
  ⟨by unfold EngineInv; decide, by unfold EngineInv; decide, _, rfl, by decide⟩

theorem witness_ComputationDependsOnlyOnItsCommands : State.reset.eng.err = .ok ∧ doneState.eng.err = .ok := by decide

/-- An `ORW` that sets a tag bit which `LEN` has, and one below the tag. -/
theorem witness_LengthTagReachesFinalisation :
    State.reset.eng.err = .ok ∧
    (∀ i ∈ [Instr.absb 1, .orw 0x0400000000000000, .orw 0x00ffffffffffffff, .fin],
      i.mnemonic ≠ .init ∧ i.mnemonic ≠ .clr ∧
        ∀ c, i = .orw c → c.extractLsb' 56 8 ||| (4 : Word).extractLsb' 0 8 = (4 : Word).extractLsb' 0 8) ∧
    ∃ t, runWords (programWords (.init 16 4 0 :: [.absb 1, .orw 0x0400000000000000, .orw 0x00ffffffffffffff, .fin]))
      State.reset = .next t := by
  refine ⟨rfl, ?_, _, rfl⟩
  intro i hi
  simp only [List.mem_cons, List.not_mem_nil, or_false] at hi
  rcases hi with rfl | rfl | rfl | rfl <;> refine ⟨by decide, by decide, ?_⟩ <;> intro c hc <;> cases hc <;>
    decide

theorem witness_ByteDigestComputesTheReference : doneState.eng.err = .ok ∧ standardKey.length = 16 := by decide

theorem witness_FastPathsEqualTheBytePath : standardKey.length = 16 ∧ doneState.eng.err = .ok := by decide

theorem witness_ThirtyTwoBitFormsEqualTheByteForm : (doneState.eng.err = .ok ∧ standardKey.length = 16) ∧
    2 ^ 32 ≤ 4294967296 ∧ 2 ^ 64 ≤ 18446744073709551616 := by decide

/-- Key lengths 15, 17 and 256, and an absorption part without `CLR`. -/
theorem witness_WrongKeyLengthEndsTheEntryPoint : State.reset.eng.err = .ok ∧
    (standardKey.drop 1).length ≠ 16 ∧ (0 :: standardKey).length ≠ 16 ∧ (List.replicate 256 (0 : Byte)).length ≠ 16 ∧
    (∀ i ∈ [Instr.absw 1], i.mnemonic ≠ .clr) :=
  ⟨rfl, by decide, by decide, by rw [List.length_replicate]; decide, by decide⟩

/-- A 16-byte key, a key of another length, and both choices of the driver. -/
theorem witness_EveryCallReturnsItsValue : doneState.eng.err = .ok ∧ standardKey.length = 16 ∧
    (standardKey.drop 1).length ≠ 16 ∧
    (callEntry false (digestProgram standardKey []) doneState).map (·.1) =
      some (.digest [0x48, 0xdd, 0x3a, 0x16, 0xb9, 0xa4, 0x40, 0xc3]) ∧
    (callEntry true (digestProgram (standardKey.drop 1) []) doneState).map (·.1) = some .invalidKeyLength := by decide

end Sys2Proof.Tests
end

section
/-! Rotations and byte strings: the word primitives of R7 and the conversions of R8 undo one another. -/

namespace Sys2Proof.Machine

/-! ## Rotations (R7) -/

/-- Bit `j` of a rotated word comes from bit `j - n`, or from bit `j + 64 - n` when it wraps round. -/
theorem getLsbD_rotl64 (a : Word) {n j : Nat} (hn : n ≤ 63) (hj : j < 64) :
    (rotl64 a n).getLsbD j = if j < n then a.getLsbD (j + 64 - n) else a.getLsbD (j - n) := by
  rw [rotl64, BitVec.getLsbD_or, BitVec.getLsbD_shiftLeft, BitVec.getLsbD_ushiftRight]
  split
  · next h => simp [h, show 64 - n + j = j + 64 - n by omega]
  · next h => simp [h, hj, BitVec.getLsbD_of_ge a (64 - n + j) (by omega)]

/-- Settles O8: a bit that stays below 64 comes from the left shift, a bit that wraps round from the right shift. -/
theorem rotationMovesEveryBit : Obligations.RotationMovesEveryBit := by
  intro a n i _ hn hi
  rw [getLsbD_rotl64 a hn (Nat.mod_lt _ (by decide))]
  by_cases hwrap : i + n < 64
  · rw [Nat.mod_eq_of_lt hwrap, if_neg (by omega), Nat.add_sub_cancel]
  · have hmod : (i + n) % 64 = i + n - 64 := by omega
    rw [hmod, if_pos (by omega), show i + n - 64 + 64 - n = i by omega]

/-! ## Byte strings of 8 bytes (R8) -/

@[simp] theorem length_le64Bytes (w : Word) : (le64Bytes w).length = 8 := rfl
@[simp] theorem length_be64Bytes (w : Word) : (be64Bytes w).length = 8 := rfl

/-- The two byte orders are each other's reversal. -/
theorem be64Bytes_eq_reverse (w : Word) : be64Bytes w = (le64Bytes w).reverse := rfl

theorem getD_le64Bytes (w : Word) {i : Nat} (hi : i < 8) : (le64Bytes w).getD i 0 = lane w i := by
  simp [le64Bytes, List.getD_eq_getElem?_getD, hi]

/-- Reading back the little-endian bytes of a word. -/
theorem le64_le64Bytes (w : Word) : le64 (le64Bytes w) = w := by
  apply BitVec.eq_of_getLsbD_eq
  intro i hi
  have hbyte : i / 8 < 8 := by omega
  rw [le64, getLsbD_laneField, getD_le64Bytes w hbyte, getLsbD_lane, Nat.div_add_mod]
  simp [hi, Nat.mod_lt]

/-- The little-endian bytes of the word that 8 bytes were read into. -/
theorem le64Bytes_le64 {bs : List Byte} (h : bs.length = 8) : le64Bytes (le64 bs) = bs := by
  apply List.ext_getElem (by rw [length_le64Bytes, h])
  intro i hi hi'
  have hlane : lane (le64 bs) i = bs.getD i 0 := lane_laneField bs (by omega)
  simpa [le64Bytes, hi'] using hlane

theorem be64_eq_le64_reverse (bs : List Byte) : be64 bs = le64 bs.reverse := rfl

theorem be64_be64Bytes (w : Word) : be64 (be64Bytes w) = w := by
  rw [be64_eq_le64_reverse, be64Bytes_eq_reverse, List.reverse_reverse, le64_le64Bytes]

/-- Swapping reads the bytes of either order in the other one. -/
theorem bswap64_eq_be64 (w : Word) : bswap64 w = be64 (le64Bytes w) := rfl

/-- Swapping the little-endian value of 8 bytes gives their big-endian value. -/
theorem bswap64_le64 {bs : List Byte} (h : bs.length = 8) : bswap64 (le64 bs) = be64 bs := by
  rw [bswap64_eq_be64, le64Bytes_le64 h]

/-- The lanes of a swapped word are its big-endian bytes (R55, R56). -/
theorem le64Bytes_bswap64 (w : Word) : le64Bytes (bswap64 w) = be64Bytes w :=
  le64Bytes_le64 (length_be64Bytes w)

theorem bswap64_bswap64 (w : Word) : bswap64 (bswap64 w) = w := by
  rw [bswap64_eq_be64 (bswap64 w), le64Bytes_bswap64, be64_be64Bytes]

/-- Settles O6: `be64` and the big-endian bytes are the little-endian ones reversed, so each part comes from reading back
the little-endian bytes. -/
theorem byteConversionsRoundTrip : Obligations.ByteConversionsRoundTrip := fun w =>
  ⟨le64_le64Bytes w, be64_be64Bytes w, bswap64_eq_be64 w, bswap64_bswap64 w⟩

/-! ## Parts of a lane field (R51, R52) -/

/-- Bytes past the field are dropped. -/
theorem laneField_take {n k : Nat} (h : n ≤ 8 * k) (bs : List Byte) : laneField n (bs.take k) = laneField n bs := by
  apply BitVec.eq_of_getLsbD_eq
  intro i hi
  have hbyte : i / 8 < k := by omega
  simp [getLsbD_laneField, hbyte]

/-- The part of a lane field from lane `k` on carries the string from byte `k` on. -/
theorem extractLsb'_laneField {n m k : Nat} (h : 8 * k + m ≤ n) (bs : List Byte) :
    (laneField n bs).extractLsb' (8 * k) m = laneField m (bs.drop k) := by
  apply BitVec.eq_of_getLsbD_eq
  intro i hi
  rw [BitVec.getLsbD_extractLsb', getLsbD_laneField, getLsbD_laneField, Nat.mul_add_div (by decide),
    Nat.mul_add_mod]
  simp [hi, show 8 * k + i < n by omega]

/-- `k0` of the key field is the big-endian value of the first 8 key bytes (R52). -/
theorem keyWord0_laneField {key : List Byte} (h : key.length = 16) :
    keyWord0 (laneField 128 key) = be64 (key.take 8) := by
  have hlanes : (laneField 128 key).extractLsb' 0 64 = le64 (key.take 8) :=
    (extractLsb'_laneField (k := 0) (by decide) key).trans (laneField_take (by decide) key).symm
  rw [keyWord0, hlanes, bswap64_le64 (by simp [h])]

/-- `k1` of the key field is the big-endian value of the last 8 key bytes (R52). -/
theorem keyWord1_laneField {key : List Byte} (h : key.length = 16) :
    keyWord1 (laneField 128 key) = be64 ((key.drop 8).take 8) := by
  have hlanes : (laneField 128 key).extractLsb' 64 64 = le64 ((key.drop 8).take 8) :=
    (extractLsb'_laneField (k := 8) (by decide) key).trans (laneField_take (by decide) _).symm
  rw [keyWord1, hlanes, bswap64_le64 (by simp [h])]

/-! ## The accumulator (R54, R142, R170) -/

/-- Bit `i` of the length tag is bit `i - 56` of `LEN` (R142). -/
theorem getLsbD_lengthTag (len : Word) {i : Nat} (hi : i < 64) :
    (lengthTag len).getLsbD i = (decide (56 ≤ i) && len.getLsbD (i - 56)) := by
  rw [lengthTag, BitVec.getLsbD_shiftLeft]
  by_cases h : i < 56
  · simp [h, show ¬ 56 ≤ i by omega]
  · simp [h, hi, show 56 ≤ i by omega]

/-- The mask of R170 is the number `2^(8*CNT) - 1`. -/
theorem tailMask_eq (cnt : BitVec 3) : (1 <<< (8 * cnt.toNat) - 1 : Word) = BitVec.ofNat 64 (2 ^ (8 * cnt.toNat) - 1) := by
  revert cnt
  decide

/-- `TAILB` keeps the bits of lanes 0..CNT-1 and clears the others (R170). -/
theorem getLsbD_tailWord (cnt : BitVec 3) (bytes : Word) (i : Nat) :
    (tailWord cnt bytes).getLsbD i = (decide (i < 8 * cnt.toNat) && bytes.getLsbD i) := by
  have hcnt : cnt.toNat < 8 := cnt.isLt
  rw [tailWord, tailMask_eq, BitVec.getLsbD_and, BitVec.getLsbD_ofNat, Nat.testBit_two_pow_sub_one, Bool.and_comm]
  by_cases h : i < 8 * cnt.toNat
  · simp [h, show i < 64 by omega]
  · simp [h]

/-- Up to seven trailing bytes, packed by the driver, pass the mask unchanged (R54, R200). -/
theorem tailWord_laneField {bs : List Byte} (h : bs.length ≤ 7) :
    tailWord (BitVec.ofNat 3 bs.length) (laneField 64 bs) = laneField 64 bs := by
  have hcnt : (BitVec.ofNat 3 bs.length).toNat = bs.length := by rw [BitVec.toNat_ofNat]; omega
  apply BitVec.eq_of_getLsbD_eq
  intro i hi
  rw [getLsbD_tailWord, hcnt, getLsbD_laneField]
  by_cases hin : i < 8 * bs.length
  · simp [hin]
  · simp [List.getElem?_eq_none (show bs.length ≤ i / 8 by omega)]

end Sys2Proof.Machine
end

section
/-! The last block of the reference (R54, R186) is the accumulator the machine has at the postamble. -/

namespace Sys2Proof.Reference

open Sys2Proof.Machine

/-- The bytes left over by the full chunks (R200). -/
def trailing (data : List Byte) : List Byte := data.drop (8 * (data.length / 8))

theorem length_trailing_le (data : List Byte) : (trailing data).length ≤ 7 := by
  rw [trailing, List.length_drop]
  omega

/-- The driver's commands for a byte string: the full chunks, then the bytes they leave over. -/
theorem byteCommands_eq_append (data : List Byte) :
    byteCommands data = chunkCommands (data.length / 8) data ++ tailCommands (trailing data) := rfl

/-- The seven low bytes of the last block are the padded trailing bytes, the top byte is `x`. -/
theorem getD_paddedBlock {bs : List Byte} (h : bs.length ≤ 7) (x : Byte) {k : Nat} (hk : k < 8) :
    (bs ++ List.replicate (7 - bs.length) 0 ++ [x]).getD k 0 = if k = 7 then x else bs.getD k 0 := by
  have hlen : (bs ++ List.replicate (7 - bs.length) (0 : Byte)).length = 7 := by simp; omega
  simp only [List.getD_eq_getElem?_getD]
  split
  · next htop => rw [htop, List.getElem?_append_right hlen.le, hlen]; rfl
  · next htop =>
    rw [List.getElem?_append_left (by omega)]
    by_cases hin : k < bs.length
    · rw [List.getElem?_append_left hin]
    · rw [List.getElem?_append_right (by omega), List.getElem?_eq_none (l := bs) (by omega),
        List.getElem?_replicate_of_lt (by omega)]
      rfl

/-- The accumulator that the length tag and the trailing bytes build up is the reference's last block. -/
theorem lengthTag_or_trailing (data : List Byte) :
    lengthTag (BitVec.ofNat 64 data.length) ||| laneField 64 (trailing data) = lastBlock data := by
  have hlen := length_trailing_le data
  apply BitVec.eq_of_getLsbD_eq
  intro i hi
  have hblock : (lastBlock data).getLsbD i =
      (if i / 8 = 7 then BitVec.ofNat 8 data.length else (trailing data).getD (i / 8) 0).getLsbD (i % 8) := by
    rw [← getD_paddedBlock hlen _ (by omega), lastBlock, le64, getLsbD_laneField, decide_eq_true hi, Bool.true_and]
    rfl
  rw [hblock, BitVec.getLsbD_or, getLsbD_lengthTag _ hi, getLsbD_laneField]
  by_cases htop : i / 8 = 7
  · have hbit : i % 8 < 8 := Nat.mod_lt _ (by decide)
    rw [if_pos htop, List.getD_eq_default _ _ (by omega), BitVec.getLsbD_ofNat, BitVec.getLsbD_ofNat,
      show i - 56 = i % 8 by omega]
    simp [hbit, show 56 ≤ i by omega, show i % 8 < 64 by omega]
  · simp [htop, hi, show ¬ 56 ≤ i by omega]

end Sys2Proof.Reference
end

section
/-! What an accepted word does: the word of a command is the command, and each command in the case an entry point
meets. -/

namespace Sys2Proof

/-- The low half of a `Y` field that carries 8 bytes. -/
theorem extractLsb'_low_setWidth (x : Word) : (x.setWidth 128).extractLsb' 0 64 = x :=
  (BitVec.extractLsb'_setWidth_of_le (by decide)).trans BitVec.extractLsb'_eq_self

/-- The high half of a `Y` field that carries 8 bytes. -/
theorem extractLsb'_high_setWidth (x : Word) : (x.setWidth 128).extractLsb' 64 64 = 0 := by
  apply BitVec.eq_of_getLsbD_eq
  intro i hi
  simp

/-- A `CNT` operand in its 8-bit `N` field (R90). -/
theorem toNat_setWidth_cnt (cnt : BitVec 3) : (cnt.setWidth 8).toNat = cnt.toNat := by
  rw [BitVec.toNat_setWidth]
  have := cnt.isLt
  omega

theorem extractLsb'_setWidth_cnt (cnt : BitVec 3) : (cnt.setWidth 8).extractLsb' 0 3 = cnt := by
  revert cnt
  decide

/-- Decoding the word of a command gives the command back: its opcode chooses the arm, and its fields hold the operands
and zeros (R81, R85 to R94). -/
theorem decode_encode (i : Instr) : decode (encode i) = .ok i := by
  cases i with
  | init klen len key =>
    rw [decode_init (Laws.EncodedOpcode.init klen len key), encode, nField_assembleFields, xField_assembleFields,
      yField_assembleFields]
  | absb bytes =>
    rw [decode_absb (Laws.EncodedOpcode.absb bytes), encode, nField_assembleFields, xField_assembleFields, yHigh_eq,
      yLow_eq, yField_assembleFields, extractLsb'_high_setWidth, extractLsb'_low_setWidth]
    rfl
  | absw m =>
    rw [decode_absw (Laws.EncodedOpcode.absw m), encode, nField_assembleFields, xField_assembleFields,
      yField_assembleFields]
    rfl
  | absp first second =>
    rw [decode_absp (Laws.EncodedOpcode.absp first second), encode, nField_assembleFields, xField_assembleFields,
      yField_assembleFields, BitVec.extractLsb'_append_eq_right,
      BitVec.extractLsb'_append_eq_left]
    rfl
  | tailb cnt bytes =>
    have hcnt : ¬ 8 ≤ cnt.toNat := by have := cnt.isLt; omega
    rw [decode_tailb (Laws.EncodedOpcode.tailb cnt bytes), encode, nField_assembleFields, xField_assembleFields, yHigh_eq,
      yLow_eq, yField_assembleFields, extractLsb'_high_setWidth, extractLsb'_low_setWidth, toNat_setWidth_cnt,
      extractLsb'_setWidth_cnt, if_neg hcnt]
    rfl
  | orw c =>
    rw [decode_orw (Laws.EncodedOpcode.orw c), encode, nField_assembleFields, xField_assembleFields,
      yField_assembleFields]
    rfl
  | fin =>
    rw [decode_fin Laws.EncodedOpcode.fin, encode, nField_assembleFields, xField_assembleFields, yField_assembleFields]
    rfl
  | round =>
    rw [decode_round Laws.EncodedOpcode.round, encode, nField_assembleFields, xField_assembleFields,
      yField_assembleFields]
    rfl
  | clr =>
    rw [decode_clr Laws.EncodedOpcode.clr, encode, nField_assembleFields, xField_assembleFields, yField_assembleFields]
    rfl

end Sys2Proof

namespace Sys2Proof.Machine

/-- Accepting the word of a command executes the command (R97). -/
theorem acceptWord_encode (i : Instr) (s : State) : acceptWord (encode i) s = exec i s :=
  acceptWord_of_ok (decode_encode i) s

/-- A run of commands whose first one answers a next state goes on from there. -/
theorem runWords_programWords_cons {i : Instr} {s t : State} (h : exec i s = .next t) (is : List Instr) :
    runWords (programWords (i :: is)) s = runWords (programWords is) t :=
  runWords_cons_of_next ((acceptWord_encode i s).trans h) _

/-- A run of two programs in a row. -/
theorem runWords_programWords_append {is : List Instr} {s t : State} (h : runWords (programWords is) s = .next t)
    (js : List Instr) : runWords (programWords (is ++ js)) s = runWords (programWords js) t := by
  rw [programWords_append, runWords_append h]

/-! ## The commands an entry point issues, in the phases it issues them -/

theorem exec_init_of_ok {s : State} (h : s.eng.err = .ok) (len : Word) (key : BitVec 128) :
    exec (.init 16 len key) s = .next { s with eng := initEngine len key s.eng } :=
  unlessFrozen_of_ok h

/-- `INIT` of another key length only raises `InvalidKeyLength` (R143). -/
theorem exec_init_of_klen_ne {s : State} (h : s.eng.err = .ok) {klen : Byte} (hk : klen ≠ 16) (len : Word)
    (key : BitVec 128) : exec (.init klen len key) s = .next { s with eng := { s.eng with err := .keylen } } :=
  (unlessFrozen_of_ok h).trans (congrFun (if_neg hk) s)

theorem exec_absb_of_absorb {s : State} (h : s.eng.err = .ok) (hp : s.eng.ph = .absorb) (bytes : Word) :
    exec (.absb bytes) s = .next { s with eng := { s.eng with v := compress bytes s.eng.v } } :=
  (unlessFrozen_of_ok h).trans (inPhase_of_mem (by simp [hp]))

theorem exec_tailb_of_absorb {s : State} (h : s.eng.err = .ok) (hp : s.eng.ph = .absorb) (cnt : BitVec 3) (bytes : Word) :
    exec (.tailb cnt bytes) s =
      .next { s with eng := { s.eng with b := s.eng.b ||| tailWord cnt bytes, ph := .tail } } :=
  (unlessFrozen_of_ok h).trans (inPhase_of_mem (by simp [hp]))

theorem exec_fin_of_mem {s : State} (h : s.eng.err = .ok) (hp : s.eng.ph ∈ [Phase.absorb, .tail]) :
    exec .fin s = .next { s with eng := finEngine s.eng } :=
  (unlessFrozen_of_ok h).trans (inPhase_of_mem hp)

theorem exec_clr (s : State) : exec .clr s = .next { s with eng := Engine.zero } := rfl

/-- A frozen engine ignores every command but `CLR` (R227). -/
theorem exec_of_frozen {s : State} (h : s.eng.err ≠ .ok) {i : Instr} (hi : i.mnemonic ≠ .clr) : exec i s = .next s := by
  cases i with
  | clr => exact absurd rfl hi
  | _ => exact unlessFrozen_of_frozen h

/-- A frozen engine ignores every program without `CLR` (R227). -/
theorem runWords_of_frozen {s : State} (h : s.eng.err ≠ .ok) {is : List Instr} (his : ∀ i ∈ is, i.mnemonic ≠ .clr) :
    runWords (programWords is) s = .next s := by
  induction is with
  | nil => rfl
  | cons i is ih =>
    rw [runWords_programWords_cons (exec_of_frozen h (his i List.mem_cons_self))]
    exact ih fun j hj => his j (List.mem_cons_of_mem i hj)

end Sys2Proof.Machine
end

section
/-! `digest(key, bytes)` (R200, R207): the run of its commands, from the leading `INIT` to the driver's result. -/

namespace Sys2Proof.Machine

open Sys2Proof.Reference (trailing)

/-! ## The phases of a computation -/

/-- The full chunks leave v0..v3 as the reference absorbs them and change nothing else. -/
theorem runWords_chunkCommands (q : Nat) (bs : List Byte) {s : State} (h : s.eng.err = .ok) (hp : s.eng.ph = .absorb) :
    runWords (programWords (chunkCommands q bs)) s =
      .next { s with eng := { s.eng with v := Reference.absorbChunks q bs s.eng.v } } := by
  induction q generalizing bs s with
  | zero => rfl
  | succ q ih =>
    rw [chunkCommands_succ, runWords_programWords_cons (exec_absb_of_absorb h hp _)]
    exact ih (bs.drop 8) h hp

/-- The phase the trailing bytes leave: none of them, no `TAILB`. -/
def phaseAfterTail (bs : List Byte) : Phase := if bs.length = 0 then .absorb else .tail

theorem phaseAfterTail_mem (bs : List Byte) : phaseAfterTail bs ∈ [Phase.absorb, .tail] := by
  unfold phaseAfterTail
  split <;> decide

/-- The trailing bytes are ORed into b, and nothing but b and the phase changes. -/
theorem runWords_tailCommands {bs : List Byte} (hbs : bs.length ≤ 7) {s : State} (h : s.eng.err = .ok)
    (hp : s.eng.ph = .absorb) :
    runWords (programWords (tailCommands bs)) s =
      .next { s with eng := { s.eng with b := s.eng.b ||| laneField 64 bs, ph := phaseAfterTail bs } } := by
  by_cases hempty : bs.length = 0
  · obtain rfl := List.length_eq_zero_iff.mp hempty
    have hzero : s.eng.b ||| laneField 64 [] = s.eng.b := BitVec.or_zero
    rw [hzero, show phaseAfterTail [] = s.eng.ph from hp.symm]
    rfl
  · rw [tailCommands, if_neg hempty, runWords_programWords_cons (exec_tailb_of_absorb h hp _ _),
      tailWord_laneField hbs, phaseAfterTail, if_neg hempty]
    rfl

/-- The accumulator and the permutation words after a byte string, before `FIN`. -/
theorem runWords_byteCommands (data : List Byte) {s : State} (h : s.eng.err = .ok) (hp : s.eng.ph = .absorb) :
    runWords (programWords (byteCommands data)) s =
      .next { s with eng := { s.eng with
        v := Reference.absorbChunks (data.length / 8) data s.eng.v
        b := s.eng.b ||| laneField 64 (trailing data)
        ph := phaseAfterTail (trailing data) } } := by
  rw [Reference.byteCommands_eq_append, runWords_programWords_append (runWords_chunkCommands _ _ h hp)]
  exact runWords_tailCommands (Reference.length_trailing_le data) h hp

/-! ## The whole computation -/

/-- The permutation words of the reference before the postamble. -/
def absorbedPerm (key data : List Byte) : Perm :=
  Reference.absorbChunks (data.length / 8) data (initialPerm (be64 (key.take 8)) (be64 ((key.drop 8).take 8)))

/-- The engine that `digest(key, bytes)` leaves: the reference's values in `DONE` (R185). -/
def digestEngine (key data : List Byte) : Engine :=
  finEngine { v := absorbedPerm key data, b := Reference.lastBlock data, dg := 0, ph := .tail, err := .ok }

@[simp] theorem digestEngine_ph (key data : List Byte) : (digestEngine key data).ph = .done := rfl
@[simp] theorem digestEngine_err (key data : List Byte) : (digestEngine key data).err = .ok := rfl

/-- The latched digest is the reference's. -/
theorem be64Bytes_digestEngine_dg (key data : List Byte) :
    be64Bytes (digestEngine key data).dg = Reference.digest key data := rfl

/-- The leading `INIT` for a 16-byte key (R200). -/
theorem initFor_of_length {key : List Byte} (hk : key.length = 16) (len : Nat) :
    initFor key len = .init 16 (BitVec.ofNat 64 len) (laneField 128 key) := by
  rw [initFor, (klenFor_eq_sixteen_iff key).mpr hk, List.take_of_length_le hk.le]

/-- A computation with a 16-byte key: when its absorption part, run after the preamble, ends unfrozen in a phase in which
`FIN` is legal, the whole ends with the postamble's engine (R185, R200). -/
theorem runWords_computation {s t : State} {key : List Byte} {len : Nat} {is : List Instr} (h : s.eng.err = .ok)
    (hk : key.length = 16)
    (hrun : runWords (programWords is)
      { s with eng := initEngine (BitVec.ofNat 64 len) (laneField 128 key) s.eng } = .next t)
    (ht : t.eng.err = .ok) (hp : t.eng.ph ∈ [Phase.absorb, .tail]) :
    runWords (programWords (computation key len is)) s = .next { t with eng := finEngine t.eng } := by
  rw [computation, initFor_of_length hk, runWords_programWords_cons (exec_init_of_ok h _ _),
    runWords_programWords_append hrun, runWords_programWords_cons (exec_fin_of_mem ht hp)]
  rfl

/-- For a 16-byte key the run of `digest(key, bytes)` ends with the engine of the reference's values. -/
theorem runWords_digestProgram {s : State} {key : List Byte} (data : List Byte) (h : s.eng.err = .ok)
    (hk : key.length = 16) :
    runWords (programWords (digestProgram key data)) s = .next { s with eng := digestEngine key data } := by
  rw [digestProgram,
    runWords_computation h hk (runWords_byteCommands data h rfl) h (phaseAfterTail_mem (trailing data))]
  simp only [initEngine, keyWord0_laneField hk, keyWord1_laneField hk, h, Reference.lengthTag_or_trailing]
  rfl

/-- For a key of another length the leading `INIT` raises `InvalidKeyLength`, and the frozen engine ignores the rest. -/
theorem runWords_computation_of_length_ne {s : State} {key : List Byte} (h : s.eng.err = .ok) (hk : key.length ≠ 16)
    (len : Nat) {is : List Instr} (his : ∀ i ∈ is, i.mnemonic ≠ .clr) :
    runWords (programWords (computation key len is)) s = .next { s with eng := { s.eng with err := .keylen } } := by
  have hklen : klenFor key ≠ 16 := mt (klenFor_eq_sixteen_iff key).mp hk
  rw [computation, initFor, runWords_programWords_cons (exec_init_of_klen_ne h hklen _ _)]
  refine runWords_of_frozen (by simp) fun i hi => ?_
  rcases List.mem_append.mp hi with hi | hi
  · exact his i hi
  · rw [List.mem_singleton.mp hi]
    decide

/-- The commands that absorb a byte string do not contain `CLR`. -/
theorem mnemonic_ne_clr_of_mem_byteCommands {data : List Byte} {i : Instr} (hi : i ∈ byteCommands data) :
    i.mnemonic ≠ .clr := by
  have hchunks : ∀ (q : Nat) (bs : List Byte), i ∈ chunkCommands q bs → i.mnemonic ≠ .clr := by
    intro q
    induction q with
    | zero => intro bs hi; cases hi
    | succ q ih =>
      intro bs hi
      rcases List.mem_cons.mp hi with rfl | hi
      · nofun
      · exact ih _ hi
  rcases List.mem_append.mp hi with hi | hi
  · exact hchunks _ _ hi
  · unfold tailCommands at hi
    split at hi
    · cases hi
    · rw [List.mem_singleton.mp hi]
      nofun

/-! ## What the driver reads and issues then (R207) -/

/-- In `DONE` without error the driver reads the big-endian bytes of the digest (R55, R56, R189). -/
theorem driverResult_of_done {e : Engine} (hp : e.ph = .done) (h : e.err = .ok) :
    driverResult (outputs e) = .digest (be64Bytes e.dg) := by
  have hvalid : dvalid e = true := by simp [dvalid, hp, h]
  simp [driverResult, readDigest, outputs, dout, hvalid, le64Bytes_bswap64]

/-- With `KEYLEN` latched the driver reads `InvalidKeyLength`, in every phase. -/
theorem driverResult_of_keylen {e : Engine} (h : e.err = .keylen) : driverResult (outputs e) = .invalidKeyLength := by
  have hvalid : dvalid e = false := by simp [dvalid, h]
  have hcode : (statusWord e).extractLsb' 2 2 = errCode .keylen := by
    rw [statusWord, h]
    cases e.ph <;> decide
  simp [driverResult, readDigest, outputs, hvalid, hcode]

/-- The engine a driver leaves after a digest: discarded or not, as it chooses. -/
theorem runWords_followUp_digest (discardDigest : Bool) (bytes : List Byte) (s : State) :
    runWords (programWords (followUp discardDigest (.digest bytes))) s =
      .next { s with eng := if discardDigest then Engine.zero else s.eng } := by
  cases discardDigest
  · rfl
  · exact runWords_programWords_cons (exec_clr s) []

theorem runWords_followUp_invalidKeyLength (discardDigest : Bool) (s : State) :
    runWords (programWords (followUp discardDigest .invalidKeyLength)) s = .next { s with eng := Engine.zero } :=
  runWords_programWords_cons (exec_clr s) []

/-- A call whose run ends in a next state with a known result, and whose follow-up ends in one. -/
theorem callEntry_of_result {c : Bool} {p : List Instr} {s t u : State} {r : DriverResult}
    (h : runWords (programWords p) s = .next t) (hr : driverResult (outputs t.eng) = r)
    (hf : runWords (programWords (followUp c r)) t = .next u) : callEntry c p s = some (r, u) := by
  subst hr
  exact callEntry_of_next h hf

/-- The driver's result after `digest(key, bytes)` with a 16-byte key is the reference's digest. -/
theorem driverResult_digestEngine (key data : List Byte) :
    driverResult (outputs (digestEngine key data)) = .digest (Reference.digest key data) :=
  driverResult_of_done rfl rfl

/-- A call of `digest` with a 16-byte key. -/
theorem callEntry_digestProgram {s : State} {key : List Byte} (discardDigest : Bool) (data : List Byte)
    (h : s.eng.err = .ok) (hk : key.length = 16) :
    callEntry discardDigest (digestProgram key data) s =
      some (.digest (Reference.digest key data),
        { s with eng := if discardDigest then Engine.zero else digestEngine key data }) :=
  callEntry_of_result (runWords_digestProgram data h hk) (driverResult_digestEngine key data)
    (runWords_followUp_digest discardDigest _ _)

/-- A call of an entry point with a key of another length, for every absorption part without `CLR`. -/
theorem callEntry_computation_of_length_ne {s : State} {key : List Byte} (discardDigest : Bool) (h : s.eng.err = .ok)
    (hk : key.length ≠ 16) (len : Nat) {is : List Instr} (his : ∀ i ∈ is, i.mnemonic ≠ .clr) :
    callEntry discardDigest (computation key len is) s = some (.invalidKeyLength, { s with eng := Engine.zero }) :=
  callEntry_of_result (runWords_computation_of_length_ne h hk len his) (driverResult_of_keylen rfl)
    (runWords_followUp_invalidKeyLength discardDigest _)

/-! ## The obligations -/

/-- Settles O48: the run ends with the engine that holds the reference's values, and the driver reads its digest. -/
theorem byteDigestComputesTheReference : Obligations.ByteDigestComputesTheReference := fun _ key data h hk =>
  ⟨_, runWords_digestProgram data h hk, rfl, rfl, driverResult_digestEngine key data,
    (be64Bytes_digestEngine_dg key data).symm⟩

/-- Settles O54: a 16-byte key by O48's run and the driver's choice, every other key by the error end and its `CLR`. -/
theorem everyCallReturnsItsValue : Obligations.EveryCallReturnsItsValue := by
  intro discardDigest s key data h
  by_cases hk : key.length = 16
  · have hcall := callEntry_digestProgram discardDigest data h hk
    refine ⟨_, by rw [if_pos hk]; exact hcall, ?_⟩
    cases discardDigest <;> simp [hk]
  · have hcall : callEntry discardDigest (digestProgram key data) s = some (.invalidKeyLength, { s with eng := .zero }) :=
      callEntry_computation_of_length_ne discardDigest h hk _ fun _ => mnemonic_ne_clr_of_mem_byteCommands
    refine ⟨_, by rw [if_neg hk]; exact hcall, ?_⟩
    simp [hk]

end Sys2Proof.Machine
end

section
/-! What a command, an accepted word and a step can do to the architectural state, once for all of them: the case
analyses that the statements of 10_state.md rest on. -/

namespace Sys2Proof

/-! ## The word of `CLR` (R94) -/

/-- A word that decodes carries the opcode of its mnemonic (R84). -/
theorem opField_of_decode {w : CmdWord} {i : Instr} (h : decode w = .ok i) : opField w = i.mnemonic.opcode := by
  rcases opcode_cases (opField w) with ho | ho | ho | ho | ho | ho | ho | ho | ho | ho
  · rw [decode_init ho] at h; cases h; exact ho
  · rw [decode_absb ho] at h; split at h <;> cases h; exact ho
  · rw [decode_absw ho] at h; split at h <;> cases h; exact ho
  · rw [decode_absp ho] at h; split at h <;> cases h; exact ho
  · rw [decode_tailb ho] at h
    split at h
    · cases h
    · split at h <;> cases h; exact ho
  · rw [decode_orw ho] at h; split at h <;> cases h; exact ho
  · rw [decode_fin ho] at h; split at h <;> cases h; exact ho
  · rw [decode_round ho] at h; split at h <;> cases h; exact ho
  · rw [decode_clr ho] at h; split at h <;> cases h; exact ho
  · rw [decode_reserved ho] at h; cases h

/-- `CLR` has no operands, so one word alone decodes to it. -/
theorem decode_eq_clr_iff {w : CmdWord} : decode w = .ok .clr ↔ w = encode .clr := by
  constructor
  · intro h
    have hop : opField w = 0x09 := opField_of_decode h
    rw [decode_clr hop] at h
    split at h
    · next hzero =>
      obtain ⟨hn, hx, hy⟩ := hzero
      rw [← assembleFields_fields w, hop, hn, hx, hy]
      rfl
    · cases h
  · rintro rfl
    exact decode_encode .clr

theorem encode_clr : encode .clr = 0x0900000000000000000000000000000000000000000000000000#208 := by decide

end Sys2Proof

namespace Sys2Proof.Machine

/-! ## Commands -/

/-- What a command makes of the engine when it completes; `Executes` ties it to `exec`. -/
def effect : Instr → Engine → Engine
  | .init _ len key, e => initEngine len key e
  | .absb bytes, e => { e with v := compress (blockOfBytes bytes) e.v }
  | .absw m, e => { e with v := compress (blockOfInteger m) e.v }
  | .absp first second, e => { e with v := compress (blockOfPair first second) e.v }
  | .tailb cnt bytes, e => { e with b := e.b ||| tailWord cnt bytes, ph := .tail }
  | .orw c, e => { e with b := e.b ||| orOperand c, ph := .tail }
  | .fin, e => finEngine e
  | .round, e => { e with v := sipRound e.v, ph := .absorb }
  | .clr, _ => Engine.zero

/-- `ROUND` writes the phase it is legal in, so the phase stays. -/
theorem effect_round_of_absorb {e : Engine} (hp : e.ph = .absorb) : effect .round e = { e with v := sipRound e.v } := by
  rw [effect, hp]

/-- The four ways a command can end, with the state it leaves (R96, R97, R226, R227). -/
inductive Executes (i : Instr) (s : State) : State → Prop where
  /-- Ignored by a frozen engine. -/
  | ignored (he : s.eng.err ≠ .ok) (hi : i ≠ .clr) : Executes i s s
  /-- Legal in the phase. -/
  | completes {p : Phase} (he : s.eng.err = .ok ∨ i = .clr) (hp : phaseTable i s.eng.ph = .goesTo p) :
      Executes i s { s with eng := effect i s.eng }
  /-- Out of phase. -/
  | outOfPhase (he : s.eng.err = .ok) (hp : phaseTable i s.eng.ph = .seq) :
      Executes i s { s with eng := { s.eng with err := .sequence } }
  /-- An `INIT` with another `KLEN` than 16. -/
  | wrongKeyLength (he : s.eng.err = .ok) (hp : phaseTable i s.eng.ph = .keyLength) :
      Executes i s { s with eng := { s.eng with err := .keylen } }

/-- A command that is guarded by the frozen check and by its row of R96. -/
theorem executes_of_guarded {i : Instr} {s : State} {legal : List Phase} {next : Phase} (hi : i ≠ .clr)
    (hexec : exec i s = unlessFrozen (inPhase legal (onEngine (effect i))) s)
    (hrow : phaseTable i s.eng.ph = Legality.within legal s.eng.ph next) :
    ∃ t, exec i s = .next t ∧ Executes i s t := by
  rw [hexec]
  rcases guarded_cases legal (effect i) s with ⟨he, h⟩ | ⟨he, hp, h⟩ | ⟨he, hp, h⟩
  · exact ⟨_, h, .ignored he hi⟩
  · exact ⟨_, h, .completes (.inl he) (hrow.trans (if_pos hp))⟩
  · exact ⟨_, h, .outOfPhase he (hrow.trans (if_neg hp))⟩

/-- `INIT`, whose row of R96 looks at `KLEN` and not at the phase. -/
theorem executes_init (klen : Byte) (len : Word) (key : BitVec 128) (s : State) :
    ∃ t, exec (.init klen len key) s = .next t ∧ Executes (.init klen len key) s t := by
  by_cases he : s.eng.err = .ok
  · by_cases hk : klen = 16
    · subst hk
      exact ⟨_, exec_init_of_ok he len key, .completes (p := .absorb) (.inl he) rfl⟩
    · exact ⟨_, exec_init_of_klen_ne he hk len key, .wrongKeyLength he (if_neg hk)⟩
  · exact ⟨_, unlessFrozen_of_frozen he, .ignored he nofun⟩

/-- Every command ends, in one of the four ways. -/
theorem exec_executes (i : Instr) (s : State) : ∃ t, exec i s = .next t ∧ Executes i s t := by
  cases i with
  | init klen len key => exact executes_init klen len key s
  | absb bytes => exact executes_of_guarded nofun rfl rfl
  | absw m => exact executes_of_guarded nofun rfl rfl
  | absp first second => exact executes_of_guarded nofun rfl rfl
  | tailb cnt bytes => exact executes_of_guarded nofun rfl rfl
  | orw c => exact executes_of_guarded nofun rfl rfl
  | fin => exact executes_of_guarded nofun rfl rfl
  | round => exact executes_of_guarded nofun rfl rfl
  | clr => exact ⟨_, exec_clr s, .completes (.inr rfl) rfl⟩

theorem executes_of_exec {i : Instr} {s t : State} (h : exec i s = .next t) : Executes i s t := by
  obtain ⟨u, hu, hexec⟩ := exec_executes i s
  cases hu.symm.trans h
  exact hexec

/-- A command completes only in the phases of its row. -/
theorem mem_of_within_eq_goesTo {legal : List Phase} {p next q : Phase}
    (h : Legality.within legal p next = .goesTo q) : p ∈ legal := by
  by_contra hp
  rw [Legality.within, if_neg hp] at h
  cases h

/-- The rows of R96 that name `ABSORB` alone. -/
theorem eq_absorb_of_within {p next q : Phase} (h : Legality.within [.absorb] p next = .goesTo q) : p = .absorb :=
  List.mem_singleton.mp (mem_of_within_eq_goesTo h)

/-! ## Accepted words and steps -/

/-- An accepted word is a command, or is ill-formed: then a frozen engine ignores it, and another latches
`IllegalCommand` (R97). -/
theorem acceptWord_cases {w : CmdWord} {s t : State} (h : acceptWord w s = .next t) :
    (∃ i, decode w = .ok i ∧ Executes i s t) ∨
    (∃ r, decode w = .error r ∧ s.eng.err ≠ .ok ∧ t = s) ∨
    (∃ r, decode w = .error r ∧ s.eng.err = .ok ∧ t = { s with eng := { s.eng with err := .illegal } }) := by
  rcases hd : decode w with r | i
  · rw [acceptWord_of_error hd, illegalWord_eq] at h
    split at h <;> cases h
    · next he => exact .inr (.inr ⟨r, rfl, he, rfl⟩)
    · next he => exact .inr (.inl ⟨r, rfl, he, rfl⟩)
  · rw [acceptWord_of_ok hd] at h
    exact .inl ⟨i, rfl, executes_of_exec h⟩

/-- What a step does to the engine is what the next event amounts to: nothing, a reset, or an accepted word. -/
theorem step_cases {s t : State} (h : step s = .next t) :
    (nextAction s = none ∧ t.eng = s.eng) ∨
    (nextAction s = some .reset ∧ t.eng = Engine.zero) ∨
    (∃ w u, nextAction s = some (.word w) ∧ u.eng = s.eng ∧ acceptWord w u = .next t) := by
  rw [step] at h
  rcases portStep_cases s with ⟨hport, hs⟩ | ⟨rest, hport, hs⟩ | ⟨w, rest, hport, hb, hs⟩ | ⟨w, rest, hport, hb, hs⟩ |
    ⟨valid, w, rest, hport, hb, hs⟩ <;> rw [hs] at h
  · cases h
    exact .inl ⟨by simp [nextAction, hport], rfl⟩
  · cases h
    exact .inr (.inl ⟨by simp [nextAction, hport], rfl⟩)
  · refine .inr (.inr ⟨w, _, by simp [nextAction, hport, hb], ?_, h⟩)
    rfl
  · cases h
    exact .inl ⟨by simp [nextAction, hport], rfl⟩
  · cases h
    exact .inl ⟨by simp [nextAction, hport, hb], rfl⟩

/-! ## Runs of programs -/

/-- What every command of a program keeps, the program's run keeps. -/
theorem runWords_programWords_keeps {P : State → Prop} {is : List Instr}
    (hkeeps : ∀ i ∈ is, ∀ s t, P s → exec i s = .next t → P t) {s t : State} (hs : P s)
    (h : runWords (programWords is) s = .next t) : P t := by
  induction is generalizing s with
  | nil => cases h; exact hs
  | cons i is ih =>
    obtain ⟨u, hu, -⟩ := exec_executes i s
    rw [runWords_programWords_cons hu] at h
    exact ih (fun j hj => hkeeps j (List.mem_cons_of_mem i hj)) (hkeeps i List.mem_cons_self s u hs hu) h

end Sys2Proof.Machine
end

section
/-! The invariant of the architectural state (R23, R25, R26, R142, R170): phase by phase, then for every command, word
and step. -/

namespace Sys2Proof.Machine

/-! ## The invariant in each phase -/

theorem engineInv_zero : EngineInv Engine.zero := ⟨fun _ => ⟨rfl, rfl⟩, nofun, fun _ => rfl, nofun⟩

theorem engineInv_of_absorb {e : Engine} (hp : e.ph = .absorb) (hb : e.b.extractLsb' 0 56 = 0) (hdg : e.dg = 0) :
    EngineInv e := by
  simp [EngineInv, hp, hb, hdg]

theorem engineInv_of_tail {e : Engine} (hp : e.ph = .tail) (hdg : e.dg = 0) : EngineInv e := by
  simp [EngineInv, hp, hdg]

theorem engineInv_of_done {e : Engine} (hp : e.ph = .done) (hdg : e.dg = digestWord e.v) : EngineInv e := by
  simp [EngineInv, hp, hdg]

/-- In `ABSORB` the invariant is about b and dg alone. -/
theorem EngineInv.parts_of_absorb {e : Engine} (h : EngineInv e) (hp : e.ph = .absorb) :
    e.b.extractLsb' 0 56 = 0 ∧ e.dg = 0 := by
  obtain ⟨_, hlow, hdg, _⟩ := h
  exact ⟨hlow hp, hdg (by simp [hp])⟩

/-- The invariant does not speak of `err`, so an error entry keeps it (R226). -/
theorem EngineInv.latch {e : Engine} (h : EngineInv e) (c : ErrCode) : EngineInv { e with err := c } := h

/-! ## The two parts of b after `INIT` (R142) -/

/-- The length tag leaves the low 56 bits zero. -/
theorem extractLsb'_low_lengthTag (len : Word) : (lengthTag len).extractLsb' 0 56 = 0 := by
  apply BitVec.eq_of_getLsbD_eq
  intro j hj
  simp [getLsbD_lengthTag len (show j < 64 by omega), show ¬ 56 ≤ j by omega]

/-- The length tag is `LEN[7:0]`. -/
theorem extractLsb'_top_lengthTag (len : Word) : (lengthTag len).extractLsb' 56 8 = len.extractLsb' 0 8 := by
  apply BitVec.eq_of_getLsbD_eq
  intro j hj
  simp [getLsbD_lengthTag len (show 56 + j < 64 by omega)]

/-! ## Commands, words and steps keep the invariant -/

/-- A command that completes keeps the invariant: the engine it leaves meets the part of the invariant that belongs to
its next phase. -/
theorem EngineInv.effect_of_goesTo {e : Engine} (h : EngineInv e) {i : Instr} {p : Phase}
    (hp : phaseTable i e.ph = .goesTo p) : EngineInv (effect i e) := by
  have hperm (hph : e.ph = .absorb) (v : Perm) : EngineInv { e with v := v } :=
    have ⟨hlow, hdg⟩ := h.parts_of_absorb hph
    engineInv_of_absorb hph hlow hdg
  have hfold (hph : e.ph = .absorb) (b : Word) : EngineInv { e with b := b, ph := .tail } :=
    have ⟨_, hdg⟩ := h.parts_of_absorb hph
    engineInv_of_tail rfl hdg
  cases i with
  | init klen len key => exact engineInv_of_absorb rfl (extractLsb'_low_lengthTag len) rfl
  | absb bytes => exact hperm (eq_absorb_of_within hp) _
  | absw m => exact hperm (eq_absorb_of_within hp) _
  | absp first second => exact hperm (eq_absorb_of_within hp) _
  | round =>
    rw [effect_round_of_absorb (eq_absorb_of_within hp)]
    exact hperm (eq_absorb_of_within hp) _
  | tailb cnt bytes => exact hfold (eq_absorb_of_within hp) _
  | orw c => exact hfold (eq_absorb_of_within hp) _
  | fin => exact engineInv_of_done rfl rfl
  | clr => exact engineInv_zero

theorem Executes.engineInv {i : Instr} {s t : State} (h : Executes i s t) (hs : EngineInv s.eng) : EngineInv t.eng := by
  cases h with
  | ignored _ _ => exact hs
  | completes _ hp => exact hs.effect_of_goesTo hp
  | outOfPhase _ _ => exact hs.latch .sequence
  | wrongKeyLength _ _ => exact hs.latch .keylen

theorem acceptWord_keeps_engineInv {w : CmdWord} {s t : State} (hs : EngineInv s.eng) (h : acceptWord w s = .next t) :
    EngineInv t.eng := by
  rcases acceptWord_cases h with ⟨i, _, hexec⟩ | ⟨r, _, _, rfl⟩ | ⟨r, _, _, rfl⟩
  · exact hexec.engineInv hs
  · exact hs
  · exact hs.latch .illegal

/-- Settles O44: a step leaves the engine as it is, resets it, or accepts a word. -/
theorem everyStepKeepsTheInvariant : Obligations.EveryStepKeepsTheInvariant := by
  intro s t hs h
  rcases step_cases h with ⟨_, heng⟩ | ⟨_, heng⟩ | ⟨w, u, _, heng, hw⟩
  · rwa [heng]
  · rw [heng]
    exact engineInv_zero
  · exact acceptWord_keeps_engineInv (by rwa [heng]) hw

/-- Settles O45: reset leaves `IDLE` with every word zero. -/
theorem theInvariantHoldsAtReset : Obligations.TheInvariantHoldsAtReset := engineInv_zero

end Sys2Proof.Machine
end

section
/-! What commands leave unchanged, what leaves the frozen condition, and the way of the length tag to finalisation (R22
to R27). -/

namespace Sys2Proof.Machine

/-! ## Frames of the commands (R22, R23, R25, R26) -/

/-- A command changes nothing outside the architectural state. -/
theorem Executes.outside {i : Instr} {s t : State} (h : Executes i s t) :
    t.busy = s.busy ∧ t.lat = s.lat ∧ t.port = s.port := by
  cases h <;> exact ⟨rfl, rfl, rfl⟩

/-- `INIT` is legal in every phase (R96). -/
theorem mnemonic_ne_init_of_seq {i : Instr} {p : Phase} (h : phaseTable i p = .seq) : i.mnemonic ≠ .init := by
  cases i with
  | init klen len key => rw [phaseTable] at h; split at h <;> cases h
  | _ => nofun

/-- Only `INIT` looks at a key length (R96). -/
theorem mnemonic_eq_init_of_keyLength {i : Instr} {p : Phase} (h : phaseTable i p = .keyLength) :
    i.mnemonic = .init := by
  have hwithin (legal : List Phase) (next : Phase) : Legality.within legal p next ≠ .keyLength := by
    rw [Legality.within]
    split <;> nofun
  cases i with
  | init klen len key => rfl
  | clr => cases h
  | _ => exact absurd h (hwithin _ _)

/-- The engine after a command: as before, as its effect leaves it, or with the one error latched that it can raise. -/
theorem Executes.eng_cases {i : Instr} {s t : State} (h : Executes i s t) :
    t.eng = s.eng ∨ (∃ p, phaseTable i s.eng.ph = .goesTo p ∧ t.eng = effect i s.eng) ∨
      t.eng = { s.eng with err := if i.mnemonic = .init then .keylen else .sequence } := by
  cases h with
  | ignored _ _ => exact .inl rfl
  | completes _ hp => exact .inr (.inl ⟨_, hp, rfl⟩)
  | outOfPhase _ hp => exact .inr (.inr (by rw [if_neg (mnemonic_ne_init_of_seq hp)]))
  | wrongKeyLength _ hp => exact .inr (.inr (by rw [if_pos (mnemonic_eq_init_of_keyLength hp)]))

/-- Settles O28: an ignored command and a completed one are within the rule's lists, and the third case is its error. -/
theorem commandsWriteOnlyTheirState : Obligations.CommandsWriteOnlyTheirState := by
  intro i s t h
  have hexec := executes_of_exec h
  obtain ⟨hbusy, hlat, hport⟩ := hexec.outside
  refine ⟨hbusy, hlat, hport, ?_⟩
  rcases hexec.eng_cases with heng | ⟨p, hp, heng⟩ | heng <;> rw [heng]
  · cases i with
    | clr => trivial
    | _ => exact .inl rfl
  · cases i with
    | clr => trivial
    | round => exact .inl (by rw [effect_round_of_absorb (eq_absorb_of_within hp)])
    | _ => exact .inl rfl
  · cases i with
    | clr => trivial
    | _ => exact .inr rfl

/-! ## The frozen condition (R27, R227) -/

/-- On a frozen engine an accepted word is the `CLR` word and discards everything, or it changes nothing. -/
theorem acceptWord_of_frozen {w : CmdWord} {s t : State} (he : s.eng.err ≠ .ok) (h : acceptWord w s = .next t) :
    t.eng = if w = encode .clr then Engine.zero else s.eng := by
  by_cases hclr : w = encode .clr
  · rw [hclr, acceptWord_encode, exec_clr] at h
    cases h
    rw [if_pos hclr]
  · rw [if_neg hclr]
    rcases acceptWord_cases h with ⟨i, hd, hexec⟩ | ⟨_, _, _, rfl⟩ | ⟨_, _, hok, _⟩
    · have hi : i ≠ .clr := fun hi => hclr (decode_eq_clr_iff.mp (hi ▸ hd))
      cases hexec with
      | ignored _ _ => rfl
      | completes hok _ => exact absurd hok (by simp [he, hi])
      | outOfPhase hok _ => exact absurd hok he
      | wrongKeyLength hok _ => exact absurd hok he
    · rfl
    · exact absurd hok he

/-- Settles O33: a step is no action, a reset, or a word that the frozen engine accepts. -/
theorem errorLatchIsSticky : Obligations.ErrorLatchIsSticky := by
  intro s t h he
  rw [← encode_clr]
  rcases step_cases h with ⟨hnext, heng⟩ | ⟨hnext, heng⟩ | ⟨w, u, hnext, hu, hw⟩ <;> rw [hnext]
  · simpa using heng
  · simpa using heng
  · rw [← hu] at he ⊢
    rw [acceptWord_of_frozen he hw]
    by_cases hclr : w = encode .clr <;> simp [hclr]

/-! ## The length tag (R24) -/

/-- ORing a word whose top byte adds nothing to a tag leaves the tag. -/
theorem extractLsb'_top_or {b t : Word} {tag : Byte} (hb : b.extractLsb' 56 8 = tag)
    (ht : t.extractLsb' 56 8 ||| tag = tag) : (b ||| t).extractLsb' 56 8 = tag := by
  rw [BitVec.extractLsb'_or, hb, BitVec.or_comm, ht]

/-- At most seven lanes of trailing bytes do not reach the top byte (R171). -/
theorem extractLsb'_top_tailWord (cnt : BitVec 3) (bytes : Word) : (tailWord cnt bytes).extractLsb' 56 8 = 0 := by
  have hcnt := cnt.isLt
  apply BitVec.eq_of_getLsbD_eq
  intro j hj
  simp [getLsbD_tailWord, show ¬ 56 + j < 8 * cnt.toNat by omega]

/-- The commands that may follow an `INIT` whose length byte is `tag`: the condition of R24. -/
def RespectsTag (tag : Byte) (i : Instr) : Prop :=
  i.mnemonic ≠ .init ∧ i.mnemonic ≠ .clr ∧ ∀ c, i = .orw c → c.extractLsb' 56 8 ||| tag = tag

/-- A command that completes and respects the tag leaves it in the top byte of b. -/
theorem effect_keeps_tag {tag : Byte} {i : Instr} (hi : RespectsTag tag i) {e : Engine}
    (hb : e.b.extractLsb' 56 8 = tag) : (effect i e).b.extractLsb' 56 8 = tag := by
  obtain ⟨hinit, hclr, horw⟩ := hi
  cases i with
  | init klen len key => exact absurd rfl hinit
  | clr => exact absurd rfl hclr
  | tailb cnt bytes =>
    exact extractLsb'_top_or hb (by rw [extractLsb'_top_tailWord]; exact BitVec.zero_or)
  | orw c => exact extractLsb'_top_or hb (horw c rfl)
  | _ => exact hb

theorem exec_keeps_tag {tag : Byte} {i : Instr} (hi : RespectsTag tag i) {s t : State}
    (hb : s.eng.b.extractLsb' 56 8 = tag) (h : exec i s = .next t) : t.eng.b.extractLsb' 56 8 = tag := by
  rcases (executes_of_exec h).eng_cases with heng | ⟨_, _, heng⟩ | heng <;> rw [heng]
  · exact hb
  · exact effect_keeps_tag hi hb
  · exact hb

/-- Settles O47: `INIT` puts the length byte on top of b, and every command of the program keeps it there. -/
theorem lengthTagReachesFinalisation : Obligations.LengthTagReachesFinalisation := by
  intro s t len key is he his h
  have hrest := (runWords_programWords_cons (exec_init_of_ok he len key) is).symm.trans h
  refine runWords_programWords_keeps (P := fun u => u.eng.b.extractLsb' 56 8 = len.extractLsb' 0 8) ?_ ?_ hrest
  · intro i hi u v
    exact exec_keeps_tag (his i hi)
  · exact extractLsb'_top_lengthTag len

end Sys2Proof.Machine
end

section
/-! The outputs `STATUS` and `fault` (R28, R29) and the state after reset (R34). -/

namespace Sys2Proof.Machine

/-- The 2-bit code names the phase (R26). -/
theorem phaseCode_injective : Function.Injective phaseCode := by
  intro p q h
  cases p <;> cases q <;> cases h <;> rfl

/-- The 2-bit code names the error (R27). -/
theorem errCode_injective : Function.Injective errCode := by
  intro c d h
  cases c <;> cases d <;> cases h <;> rfl

theorem statusWord_high (e : Engine) : (statusWord e).extractLsb' 2 2 = errCode e.err :=
  BitVec.extractLsb'_append_eq_left

theorem statusWord_low (e : Engine) : (statusWord e).extractLsb' 0 2 = phaseCode e.ph :=
  BitVec.extractLsb'_append_eq_right

theorem faultLine_eq_true_iff (e : Engine) : faultLine e = true ↔ e.err ≠ .ok := bne_iff_ne

/-- Settles O35: both halves of `STATUS` read back, and each code names one element. -/
theorem statusShowsPhaseAndError : Obligations.StatusShowsPhaseAndError := by
  intro e
  refine ⟨statusWord_high e, statusWord_low e, faultLine_eq_true_iff e, fun e' h => ⟨?_, ?_⟩⟩
  · exact phaseCode_injective (by rw [← statusWord_low, ← statusWord_low, h])
  · exact errCode_injective (by rw [← statusWord_high, ← statusWord_high, h])

/-- The outputs of the reset engine are all zero (R34). -/
theorem outputs_zero : outputs Engine.zero = { dout := 0, dvalid := false, status := 0, fault := false } := by decide

/-- Settles O36: `CLR` discards the state in every phase. -/
theorem resetState : Obligations.ResetState := ⟨rfl, outputs_zero, fun s => ⟨_, exec_clr s, rfl⟩⟩

end Sys2Proof.Machine
end

section
/-! The port as a simulation (R60, R72, R272, R275): an accepted word is a function of the engine alone and always
answers, so a run of clock edges is the fold of the words it accepts. -/

namespace Sys2Proof.Machine

/-! ## Accepted words as functions of the engine -/

/-- The engine after a command, by the table of R96 under the frozen check (R97, R227). -/
def engineAfter (i : Instr) (e : Engine) : Engine :=
  if e.err = .ok ∨ i = .clr then
    match phaseTable i e.ph with
    | .goesTo _ => effect i e
    | .seq => { e with err := .sequence }
    | .keyLength => { e with err := .keylen }
  else e

/-- The engine after an accepted word (R60, R97). -/
def engineAfterWord (w : CmdWord) (e : Engine) : Engine :=
  match decode w with
  | .ok i => engineAfter i e
  | .error _ => if e.err = .ok then { e with err := .illegal } else e

theorem Executes.eq_engineAfter {i : Instr} {s t : State} (h : Executes i s t) :
    t = { s with eng := engineAfter i s.eng } := by
  cases h with
  | ignored he hi => rw [engineAfter, if_neg (by simp [he, hi])]
  | completes he hp => rw [engineAfter, if_pos he, hp]
  | outOfPhase he hp => rw [engineAfter, if_pos (.inl he), hp]
  | wrongKeyLength he hp => rw [engineAfter, if_pos (.inl he), hp]

/-- An accepted word always answers, and what it does to the engine depends on the engine alone. -/
theorem acceptWord_eq (w : CmdWord) (s : State) :
    acceptWord w s = .next { s with eng := engineAfterWord w s.eng } := by
  rcases hd : decode w with r | i
  · rw [acceptWord_of_error hd, illegalWord_eq, engineAfterWord, hd]
    by_cases he : s.eng.err = .ok
    · simp only [if_pos he]
    · simp only [if_neg he]
  · obtain ⟨t, ht, hexec⟩ := exec_executes i s
    rw [acceptWord_of_ok hd, ht, hexec.eq_engineAfter, engineAfterWord, hd]

/-! ## Runs -/

/-- No event at the pins stops the machine (R275). -/
theorem exists_step_eq_next (s : State) : ∃ t, step s = .next t := by
  rw [step]
  rcases portStep_cases s with ⟨-, h⟩ | ⟨_, -, h⟩ | ⟨w, _, -, -, h⟩ | ⟨_, _, -, -, h⟩ | ⟨_, _, _, -, -, h⟩
  · exact ⟨_, h⟩
  · exact ⟨_, h⟩
  · exact ⟨_, h.trans (acceptWord_eq w _)⟩
  · exact ⟨_, h⟩
  · exact ⟨_, h⟩

theorem safeRun (k : Nat) (s : State) : SafeRun k s := by
  induction k generalizing s with
  | zero => exact ⟨s, rfl⟩
  | succ k ih =>
    obtain ⟨t, ht⟩ := exists_step_eq_next s
    rw [SafeRun, runSteps_succ_of_next ht]
    exact ih t

/-- Settles O42: an accepted word always answers a next state, and so does every other event. -/
theorem theMachineNeverStops : Obligations.TheMachineNeverStops := ⟨exists_step_eq_next, safeRun⟩

theorem actionsOf_succ_of_next {s t : State} (h : step s = .next t) (k : Nat) :
    actionsOf (k + 1) s = (nextAction s).toList ++ actionsOf k t := by
  simp only [actionsOf, h]

theorem applyActions_word (w : CmdWord) (as : List PortAction) (s : State) :
    applyActions (.word w :: as) s = applyActions as { s with eng := engineAfterWord w s.eng } := by
  simp only [applyActions, acceptWord_eq]

/-- The commuting square of one step: whatever state with the same engine the fold has reached, the step's action takes
it to a state with the engine after the step. -/
theorem applyActions_nextAction {s t u : State} (h : step s = .next t) (hu : u.eng = s.eng) (as : List PortAction) :
    ∃ v, v.eng = t.eng ∧ applyActions ((nextAction s).toList ++ as) u = applyActions as v := by
  rcases step_cases h with ⟨hnext, heng⟩ | ⟨hnext, heng⟩ | ⟨w, x, hnext, hx, hw⟩ <;> rw [hnext]
  · exact ⟨u, hu.trans heng.symm, rfl⟩
  · exact ⟨applyReset u, heng.symm, rfl⟩
  · rw [acceptWord_eq, hx] at hw
    cases hw
    exact ⟨_, congrArg (engineAfterWord w) hu, applyActions_word w as u⟩

/-- The simulation over a run: the fold may start from any state with the same engine. -/
theorem runSteps_simulated (k : Nat) {s u : State} (hu : u.eng = s.eng) :
    ∃ t v, runSteps k s = .next t ∧ applyActions (actionsOf k s) u = .next v ∧ v.eng = t.eng := by
  induction k generalizing s u with
  | zero => exact ⟨s, u, rfl, rfl, hu⟩
  | succ k ih =>
    obtain ⟨t, ht⟩ := exists_step_eq_next s
    obtain ⟨v, hv, hfold⟩ := applyActions_nextAction ht hu (actionsOf k t)
    rw [runSteps_succ_of_next ht, actionsOf_succ_of_next ht, hfold]
    exact ih hv

/-- Settles O43: the simulation of the run by the fold from the run's own first state. -/
theorem runIsTheFoldOfItsAcceptedWords : Obligations.RunIsTheFoldOfItsAcceptedWords := fun k _ =>
  runSteps_simulated k rfl

end Sys2Proof.Machine
end

section
/-! The handshake of the command port (R60, R72): one step for each event at the pins, and the edges that a command in
progress takes. -/

namespace Sys2Proof.Machine

/-! ## One step, event by event (R60, R72) -/

theorem step_of_port_nil {s : State} (hp : s.port = []) : step s = .next s := by
  rw [step, portStep, hp]

/-- A busy engine only counts the edge, whatever is presented. -/
theorem step_of_busy {s : State} {valid : Bool} {w : CmdWord} {rest : List PortEvent}
    (hp : s.port = .edge valid w :: rest) (hb : s.busy ≠ 0) :
    step s = .next { s with port := rest, busy := s.busy - 1 } := by
  rw [step, portStep, hp]
  exact if_neg hb

/-- A ready engine to which nothing is presented. -/
theorem step_of_not_valid {s : State} {w : CmdWord} {rest : List PortEvent}
    (hp : s.port = .edge false w :: rest) (hb : s.busy = 0) : step s = .next { s with port := rest } := by
  rw [step, portStep, hp]
  exact if_pos hb

/-- A ready engine accepts the word presented to it. -/
theorem step_of_valid {s : State} {w : CmdWord} {rest : List PortEvent}
    (hp : s.port = .edge true w :: rest) (hb : s.busy = 0) :
    step s = acceptWord w { s with port := rest, busy := latencyOf w s } := by
  rw [step, portStep, hp]
  exact if_pos hb

theorem latencyOf_of_error {w : CmdWord} {r : DecodeError} (h : decode w = .error r) (s : State) :
    latencyOf w s = s.lat.refused := by
  simp only [latencyOf, h]

/-- Settles O38: a ready engine accepts the word, which is then decoded. -/
theorem stepRunsTheDecodedCommand : Obligations.StepRunsTheDecodedCommand := by
  intro s w rest hb hp
  rw [step_of_valid hp hb]
  refine ⟨fun i hd => acceptWord_of_ok hd _, fun r hd => ?_⟩
  rw [acceptWord_eq, engineAfterWord, hd, latencyOf_of_error hd]

/-- Settles O39: no event, an edge without `cmd_valid`, an edge while a command is in progress. -/
theorem idleEdgesKeepTheState : Obligations.IdleEdgesKeepTheState :=
  ⟨fun _ => step_of_port_nil, fun _ _ _ => step_of_not_valid, fun _ _ _ _ => step_of_busy⟩

/-! ## The latency (R72, R273) -/

theorem cmdReady_eq_true_iff (s : State) : cmdReady s = true ↔ s.busy = 0 := beq_iff_eq

/-- Edges during a command only count down. -/
theorem runSteps_of_busy {s : State} {es : List (Bool × CmdWord)} {rest : List PortEvent}
    (hp : s.port = es.map (fun e => PortEvent.edge e.1 e.2) ++ rest) (hb : es.length ≤ s.busy) :
    runSteps es.length s = .next { s with busy := s.busy - es.length, port := rest } := by
  induction es generalizing s with
  | nil =>
    have hport : s.port = rest := hp
    rw [← hport]
    rfl
  | cons e es ih =>
    rw [List.length_cons] at hb ⊢
    rw [runSteps_succ_of_next (step_of_busy hp (by omega)), ih rfl (Nat.le_sub_of_add_le hb), Nat.sub_sub,
      Nat.add_comm 1]

/-- Settles O40: the edges count the latency down, and the engine is ready when nothing is left of it. -/
theorem readyAgainAfterTheLatency : Obligations.ReadyAgainAfterTheLatency := by
  intro s es rest hp hb
  refine ⟨_, runSteps_of_busy hp hb, rfl, ?_⟩
  rw [cmdReady_eq_true_iff]
  change s.busy - es.length = 0 ↔ _
  omega

end Sys2Proof.Machine
end

section
/-! The byte orders of the key lanes (R52), of the trailing bytes (R54) and of the digest port (R56), and how long the
digest is shown. -/

namespace Sys2Proof.Machine

/-! ## Key halves (R52) -/

/-- Lane `i` of the part of a field from lane `k` on is lane `k + i` of the field. -/
theorem lane_extractLsb' {n m : Nat} (f : BitVec n) (k : Nat) {i : Nat} (h : 8 * i + 8 ≤ m) :
    lane (f.extractLsb' (8 * k) m) i = lane f (k + i) := by
  apply BitVec.eq_of_getLsbD_eq
  intro j hj
  rw [getLsbD_lane, getLsbD_lane, BitVec.getLsbD_extractLsb', decide_eq_true (show 8 * i + j < m by omega),
    Bool.true_and, show 8 * k + (8 * i + j) = 8 * (k + i) + j by omega]

theorem le64Bytes_extractLsb' {n : Nat} (f : BitVec n) (k : Nat) :
    le64Bytes (f.extractLsb' (8 * k) 64) = (List.range 8).map fun i => lane f (k + i) :=
  List.map_congr_left fun i hi => lane_extractLsb' f k (by have := List.mem_range.mp hi; omega)

/-- The big-endian value of 8 lanes of a field (R8, R52). -/
theorem bswap64_extractLsb' {n : Nat} (f : BitVec n) (k : Nat) :
    bswap64 (f.extractLsb' (8 * k) 64) = be64 ((List.range 8).map fun i => lane f (k + i)) := by
  rw [bswap64_eq_be64, le64Bytes_extractLsb']

/-- Settles O12: swapping each half of the key field reads its 8 lanes big-endian. -/
theorem keyWordsAreBigEndian : Obligations.KeyWordsAreBigEndian := by
  refine ⟨fun key => ⟨?_, ?_, rfl, rfl⟩, by decide, by decide⟩
  · exact bswap64_extractLsb' key 0
  · exact bswap64_extractLsb' key 8

/-! ## Trailing bytes (R54) -/

/-- Zero bytes at the end of a string do not change its number. -/
theorem leNat_append_zeros (bs : List Byte) (n : Nat) : leNat (bs ++ List.replicate n 0) = leNat bs := by
  induction bs with
  | nil =>
    induction n with
    | zero => rfl
    | succ n ih => exact congrArg (0 + 256 * ·) ih
  | cons x xs ih => exact congrArg (x.toNat + 256 * ·) ih

/-- `TAILB` packs the bytes in the lanes it keeps, whatever the other lanes hold. -/
theorem tailWord_eq_laneField {bytes : Word} {T : List Byte} (hlen : T.length ≤ 7)
    (hT : ∀ i, i < T.length → T[i]? = some (lane bytes i)) :
    tailWord (BitVec.ofNat 3 T.length) bytes = laneField 64 T := by
  rw [← tailWord_laneField hlen]
  have hcnt : (BitVec.ofNat 3 T.length).toNat = T.length := by rw [BitVec.toNat_ofNat]; omega
  apply BitVec.eq_of_getLsbD_eq
  intro i hi
  rw [getLsbD_tailWord, getLsbD_tailWord, hcnt]
  by_cases hin : i < 8 * T.length
  · rw [getLsbD_laneField, List.getD_eq_getElem?_getD, hT (i / 8) (by omega), Option.getD_some, getLsbD_lane,
      Nat.div_add_mod]
    simp [hi, Nat.mod_lt]
  · simp [hin]

/-- Settles O19: the packed word is the lane field of the trailing bytes, and padding it with zero bytes changes nothing. -/
theorem trailingBytesAreLittleEndian : Obligations.TrailingBytesAreLittleEndian := by
  refine ⟨fun bytes T _ hlen hT => ?_, by decide⟩
  rw [tailWord_eq_laneField hlen hT, le64, laneField, laneField, leNat_append_zeros]
  exact ⟨rfl, rfl⟩

/-! ## The digest port (R56) -/

theorem dvalid_eq_true_iff (e : Engine) : dvalid e = true ↔ e.ph = .done ∧ e.err = .ok := by
  simp [dvalid]

theorem dout_of_dvalid {e : Engine} (h : dvalid e = true) : dout e = bswap64 e.dg := if_pos h

theorem dout_of_not_dvalid {e : Engine} (h : dvalid e = false) : dout e = 0 := if_neg (by simp [h])

/-- The lanes of a swapped word are those of the word in reverse. -/
theorem lane_bswap64 (w : Word) {i : Nat} (hi : i < 8) : lane (bswap64 w) i = lane w (7 - i) := by
  rw [← getD_le64Bytes _ hi, le64Bytes_bswap64]
  simp [be64Bytes, List.getD_eq_getElem?_getD, hi]

theorem dvalid_of_err_ne {e : Engine} (h : e.err ≠ .ok) : dvalid e = false :=
  Bool.eq_false_iff.mpr fun hv => h ((dvalid_eq_true_iff e).mp hv).2

theorem dvalid_of_ph_ne {e : Engine} (h : e.ph ≠ .done) : dvalid e = false :=
  Bool.eq_false_iff.mpr fun hv => h ((dvalid_eq_true_iff e).mp hv).1

/-- The commands legal in `DONE` leave it: they are `INIT` and `CLR` (R96). -/
theorem effect_ph_ne_done {i : Instr} {p : Phase} (h : phaseTable i .done = .goesTo p) (e : Engine) :
    (effect i e).ph ≠ .done := by
  cases i with
  | init klen len key => nofun
  | clr => nofun
  | _ => cases h

/-- Every accepted word withdraws the digest: it latches an error or leaves `DONE`. -/
theorem acceptWord_withdraws_digest {w : CmdWord} {s t : State} (hs : dvalid s.eng = true)
    (h : acceptWord w s = .next t) : dvalid t.eng = false := by
  obtain ⟨hph, herr⟩ := (dvalid_eq_true_iff s.eng).mp hs
  rcases acceptWord_cases h with ⟨i, -, hexec⟩ | ⟨_, -, hfrozen, -⟩ | ⟨_, -, -, rfl⟩
  · cases hexec with
    | ignored hfrozen _ => exact absurd herr hfrozen
    | completes _ hp => exact dvalid_of_ph_ne (effect_ph_ne_done (hph ▸ hp) s.eng)
    | outOfPhase _ _ => exact dvalid_of_err_ne nofun
    | wrongKeyLength _ _ => exact dvalid_of_err_ne nofun
  · exact absurd herr hfrozen
  · exact dvalid_of_err_ne nofun

/-- While the digest is shown, a step either takes no action and keeps the engine, or withdraws the digest. -/
theorem step_digest_cases {s t : State} (hs : dvalid s.eng = true) (h : step s = .next t) :
    (nextAction s = none ∧ t.eng = s.eng) ∨ (nextAction s ≠ none ∧ dvalid t.eng = false) := by
  rcases step_cases h with hkeep | ⟨hnext, heng⟩ | ⟨w, u, hnext, hu, hw⟩
  · exact .inl hkeep
  · exact .inr ⟨by simp [hnext], by rw [heng]; rfl⟩
  · exact .inr ⟨by simp [hnext], acceptWord_withdraws_digest (by rwa [hu]) hw⟩

/-- Settles O34: the lanes of the port are those of `dg` in reverse, and every action at the pins withdraws the digest. -/
theorem digestPortIsBigEndian : Obligations.DigestPortIsBigEndian := by
  refine ⟨fun e => ⟨dvalid_eq_true_iff e, fun h => ?_, dout_of_not_dvalid⟩, fun s t hs h => ?_, by decide, by decide⟩
  · rw [dout_of_dvalid h]
    refine ⟨rfl, le64Bytes_bswap64 e.dg, fun i hi => ?_⟩
    rw [lane_bswap64 e.dg hi, lane, show 8 * (7 - i) = 56 - 8 * i by omega]
  · rcases step_digest_cases hs h with ⟨hnext, heng⟩ | ⟨hnext, hv⟩
    · exact ⟨fun _ => heng, fun hne => absurd hnext hne⟩
    · exact ⟨fun hnone => absurd hnone hnext, fun _ => ⟨hv, dout_of_not_dvalid hv⟩⟩

end Sys2Proof.Machine
end

section
/-! Encoding and decoding undo one another (R81, R85 to R94), and the field conditions under which a word decodes. -/

namespace Sys2Proof

/-! ## The two directions -/

/-- Settles O2: the word of a command carries its opcode, its operands and zeros. -/
theorem decodeOfEncode : Obligations.DecodeOfEncode := decode_encode

/-- An 8-byte `Y` field with zeros above is the widened operand. -/
theorem setWidth_yLow {w : CmdWord} (h : yHigh w = 0) : (yLow w).setWidth 128 = yField w := by
  apply BitVec.eq_of_getLsbD_eq
  intro i hi
  by_cases hlow : i < 64
  · simp [yLow, yField, hlow, hi]
  · have hbit : (yHigh w).getLsbD (i - 64) = false := by rw [h]; exact BitVec.getLsbD_zero
    rw [yHigh, BitVec.getLsbD_extractLsb', show 64 + (i - 64) = i by omega] at hbit
    have hw : w.getLsbD i = false := by simpa [show i - 64 < 64 by omega] using hbit
    simp [yLow, yField, hlow, hw]

/-- The count of a `TAILB` fills the low 3 bits of `N` when `N < 8` (R90). -/
theorem setWidth_extractLsb'_cnt {n : Byte} (h : ¬ 8 ≤ n.toNat) : (n.extractLsb' 0 3).setWidth 8 = n := by
  revert n
  decide

/-- The two halves of an `ABSP` operand make up its `X` field (R88). -/
theorem append_extractLsb'_halves (x : Word) : x.extractLsb' 32 32 ++ x.extractLsb' 0 32 = x := by
  rw [BitVec.extractLsb'_append_extractLsb'_eq_extractLsb' (by decide)]
  exact BitVec.extractLsb'_eq_self

/-- A word is the word of any fields it has (R81). -/
theorem assembleFields_of_fields {w : CmdWord} {op n : Byte} {x : Word} {y : BitVec 128} (ho : opField w = op)
    (hn : nField w = n) (hx : xField w = x) (hy : yField w = y) : assembleFields op n x y = w := by
  rw [← ho, ← hn, ← hx, ← hy, assembleFields_fields]

/-- A check of the decoder that passes. -/
theorem ite_eq_ok_iff {c : Prop} [Decidable c] {a i : Instr} {e : DecodeError} :
    (if c then Except.ok a else Except.error e) = Except.ok i ↔ c ∧ a = i := by
  split <;> simp [*]

/-- A check of the decoder that fails. -/
theorem ite_eq_error_iff {c : Prop} [Decidable c] {a : Instr} {e r : DecodeError} :
    (if c then Except.ok a else Except.error e) = Except.error r ↔ ¬ c ∧ e = r := by
  split <;> simp [*]

/-- Encoding a decoded word gives the word back: the operands are all the bits of the word outside `OP` that the
decoder does not check to be zero (R89). -/
theorem encode_of_decode {w : CmdWord} {i : Instr} (h : decode w = .ok i) : encode i = w := by
  have hop : opField w = i.mnemonic.opcode := opField_of_decode h
  cases i with
  | init klen len key =>
    rw [decode_init hop] at h
    cases h
    exact assembleFields_of_fields hop rfl rfl rfl
  | absb bytes =>
    rw [decode_absb hop, ite_eq_ok_iff] at h
    obtain ⟨⟨hn, hx, hhigh⟩, ⟨⟩⟩ := h
    exact assembleFields_of_fields hop hn hx (setWidth_yLow hhigh).symm
  | absw m =>
    rw [decode_absw hop, ite_eq_ok_iff] at h
    obtain ⟨⟨hn, hy⟩, ⟨⟩⟩ := h
    exact assembleFields_of_fields hop hn rfl hy
  | absp first second =>
    rw [decode_absp hop, ite_eq_ok_iff] at h
    obtain ⟨⟨hn, hy⟩, ⟨⟩⟩ := h
    exact assembleFields_of_fields hop hn (append_extractLsb'_halves _).symm hy
  | tailb cnt bytes =>
    rw [decode_tailb hop] at h
    split at h
    · cases h
    · next hcnt =>
      rw [ite_eq_ok_iff] at h
      obtain ⟨⟨hx, hhigh⟩, ⟨⟩⟩ := h
      exact assembleFields_of_fields hop (setWidth_extractLsb'_cnt hcnt).symm hx (setWidth_yLow hhigh).symm
  | orw c =>
    rw [decode_orw hop, ite_eq_ok_iff] at h
    obtain ⟨⟨hn, hy⟩, ⟨⟩⟩ := h
    exact assembleFields_of_fields hop hn rfl hy
  | fin =>
    rw [decode_fin hop, ite_eq_ok_iff] at h
    obtain ⟨⟨hn, hx, hy⟩, -⟩ := h
    exact assembleFields_of_fields hop hn hx hy
  | round =>
    rw [decode_round hop, ite_eq_ok_iff] at h
    obtain ⟨⟨hn, hx, hy⟩, -⟩ := h
    exact assembleFields_of_fields hop hn hx hy
  | clr =>
    rw [decode_clr hop, ite_eq_ok_iff] at h
    obtain ⟨⟨hn, hx, hy⟩, -⟩ := h
    exact assembleFields_of_fields hop hn hx hy

/-- Settles O3: each operand sits in the field it was read from, and the fields it was not read from are zero. -/
theorem encodeOfDecode : Obligations.EncodeOfDecode := fun _ _ => encode_of_decode

/-- Settles O1: the printed words, evaluated. -/
theorem printedWordsDecode : Obligations.PrintedWordsDecode := by
  unfold Obligations.PrintedWordsDecode
  decide

/-! ## Which words decode to a mnemonic (R85 to R94) -/

/-- The fields `N`, `X`, `Y` are as the mnemonic's rule wants them; `exists_decode_iff` ties it to the decoder. -/
def FieldsFit : Mnemonic → CmdWord → Prop
  | .init, _ => True
  | .absb, w => nField w = 0 ∧ xField w = 0 ∧ yHigh w = 0
  | .tailb, w => (nField w).toNat < 8 ∧ xField w = 0 ∧ yHigh w = 0
  | .absw, w | .absp, w | .orw, w => nField w = 0 ∧ yField w = 0
  | .fin, w | .round, w | .clr, w => nField w = 0 ∧ xField w = 0 ∧ yField w = 0

theorem yHigh_assembleFields_setWidth (op n : Byte) (x bytes : Word) :
    yHigh (assembleFields op n x (bytes.setWidth 128)) = 0 := by
  rw [yHigh_eq, yField_assembleFields, extractLsb'_high_setWidth]

theorem fieldsFit_encode (i : Instr) : FieldsFit i.mnemonic (encode i) := by
  cases i with
  | init klen len key => trivial
  | absb bytes =>
    exact ⟨nField_assembleFields _ _ _ _, xField_assembleFields _ _ _ _, yHigh_assembleFields_setWidth _ _ _ _⟩
  | tailb cnt bytes =>
    refine ⟨?_, xField_assembleFields _ _ _ _, yHigh_assembleFields_setWidth _ _ _ _⟩
    rw [encode, nField_assembleFields, toNat_setWidth_cnt]
    exact cnt.isLt
  | absw m => exact ⟨nField_assembleFields _ _ _ _, yField_assembleFields _ _ _ _⟩
  | absp first second => exact ⟨nField_assembleFields _ _ _ _, yField_assembleFields _ _ _ _⟩
  | orw c => exact ⟨nField_assembleFields _ _ _ _, yField_assembleFields _ _ _ _⟩
  | _ => exact ⟨nField_assembleFields _ _ _ _, xField_assembleFields _ _ _ _, yField_assembleFields _ _ _ _⟩

/-- A word decodes to a mnemonic exactly when it has the opcode and its fields fit (R89). -/
theorem exists_decode_iff (w : CmdWord) (m : Mnemonic) :
    (∃ i, decode w = .ok i ∧ i.mnemonic = m) ↔ opField w = m.opcode ∧ FieldsFit m w := by
  constructor
  · rintro ⟨i, h, rfl⟩
    refine ⟨opField_of_decode h, ?_⟩
    rw [← encode_of_decode h]
    exact fieldsFit_encode i
  · rintro ⟨hop, hfit⟩
    cases m with
    | init => exact ⟨_, decode_init hop, rfl⟩
    | absb => exact ⟨_, (decode_absb hop).trans (if_pos hfit), rfl⟩
    | absw => exact ⟨_, (decode_absw hop).trans (if_pos hfit), rfl⟩
    | absp => exact ⟨_, (decode_absp hop).trans (if_pos hfit), rfl⟩
    | tailb =>
      obtain ⟨hcnt, hzero⟩ := hfit
      exact ⟨_, (decode_tailb hop).trans ((if_neg (Nat.not_le.mpr hcnt)).trans (if_pos hzero)), rfl⟩
    | orw => exact ⟨_, (decode_orw hop).trans (if_pos hfit), rfl⟩
    | fin => exact ⟨_, (decode_fin hop).trans (if_pos hfit), rfl⟩
    | round => exact ⟨_, (decode_round hop).trans (if_pos hfit), rfl⟩
    | clr => exact ⟨_, (decode_clr hop).trans (if_pos hfit), rfl⟩

end Sys2Proof
end

section
/-! The match and mask table (R99) is the field conditions, and the causes of the rejections (R86 to R95). -/

namespace Sys2Proof

/-! ## The rows of R99 -/

/-- The bits of `N` that must be zero for a mnemonic (R85 to R94). -/
def Mnemonic.zeroN : Mnemonic → Byte
  | .init => 0
  | .tailb => 0xf8
  | _ => BitVec.allOnes 8

/-- The bits of `X` that must be zero for a mnemonic (R85 to R94). -/
def Mnemonic.zeroX : Mnemonic → Word
  | .init | .absw | .absp | .orw => 0
  | _ => BitVec.allOnes 64

/-- The bits of `Y` that must be zero for a mnemonic (R85 to R94). -/
def Mnemonic.zeroY : Mnemonic → BitVec 128
  | .init => 0
  | .absb | .tailb => BitVec.allOnes 64 ++ 0#64
  | _ => BitVec.allOnes 128

/-- The row of R99 that follows from the field rules; `mem_opcodeTable_iff` ties it to the printed table. -/
def Mnemonic.row (m : Mnemonic) : OpcodeRow :=
  { mnemonic := m
    pattern := assembleFields m.opcode 0 0 0
    mask := assembleFields (BitVec.allOnes 8) m.zeroN m.zeroX m.zeroY }

/-- The printed rows are those of the field rules. -/
theorem opcodeTable_eq_map_row :
    opcodeTable = [Mnemonic.init, .absb, .absw, .absp, .tailb, .orw, .fin, .round, .clr].map Mnemonic.row := by
  decide

/-- The table has one row for each mnemonic. -/
theorem mem_opcodeTable_iff {r : OpcodeRow} : r ∈ opcodeTable ↔ r = r.mnemonic.row := by
  rw [opcodeTable_eq_map_row, List.mem_map]
  constructor
  · rintro ⟨m, -, rfl⟩
    rfl
  · intro h
    refine ⟨r.mnemonic, ?_, h.symm⟩
    cases r.mnemonic <;> decide

/-! ## A row accepts the words whose fields fit -/

/-- The five high bits of a byte are zero exactly when it is below 8 (R90). -/
theorem and_0xf8_eq_zero_iff (n : Byte) : n &&& 0xf8 = 0 ↔ n.toNat < 8 := by
  revert n
  decide

/-- `Y` under the mask of its lanes 8..15. -/
theorem yField_and_high_eq_zero_iff (w : CmdWord) :
    yField w &&& (BitVec.allOnes 64 ++ 0#64) = 0 ↔ yHigh w = 0 := by
  have hy : yHigh w ++ yLow w = yField w := BitVec.extractLsb'_append_extractLsb'_eq_extractLsb' rfl
  rw [← hy, BitVec.and_append, BitVec.and_allOnes, BitVec.and_zero]
  constructor
  · intro h
    have hhigh := congrArg (BitVec.extractLsb' 64 64) h
    rwa [BitVec.extractLsb'_append_eq_left] at hhigh
  · intro h
    rw [h]
    rfl

/-- The fields of a mnemonic fit exactly when the bits that must be zero are. -/
theorem fieldsFit_iff_masked (m : Mnemonic) (w : CmdWord) :
    FieldsFit m w ↔ nField w &&& m.zeroN = 0 ∧ xField w &&& m.zeroX = 0 ∧ yField w &&& m.zeroY = 0 := by
  have hx : xField w &&& 0 = 0 := BitVec.and_zero
  cases m with
  | init => exact iff_of_true trivial ⟨BitVec.and_zero, hx, BitVec.and_zero⟩
  | absb =>
    simp only [FieldsFit, Mnemonic.zeroN, Mnemonic.zeroX, Mnemonic.zeroY, BitVec.and_allOnes, yField_and_high_eq_zero_iff]
  | tailb =>
    simp only [FieldsFit, Mnemonic.zeroN, Mnemonic.zeroX, Mnemonic.zeroY, BitVec.and_allOnes, and_0xf8_eq_zero_iff,
      yField_and_high_eq_zero_iff]
  | _ => simp only [FieldsFit, Mnemonic.zeroN, Mnemonic.zeroX, Mnemonic.zeroY, BitVec.and_allOnes, hx, true_and]

/-- A word has the match of a row under its mask exactly when it has the row's opcode and its fields fit. -/
theorem and_mask_eq_pattern_iff (w : CmdWord) (m : Mnemonic) :
    w &&& m.row.mask = m.row.pattern ↔ opField w = m.opcode ∧ FieldsFit m w := by
  conv_lhs => rw [← assembleFields_fields w]
  rw [Mnemonic.row, and_assembleFields, assembleFields_inj, BitVec.and_allOnes, fieldsFit_iff_masked]

theorem mnemonic_opcode_injective : Function.Injective Mnemonic.opcode := by
  intro m m' h
  cases m <;> cases m' <;> cases h <;> rfl

/-- R99 mnemonic by mnemonic: decoding to it is matching its row. -/
theorem exists_decode_iff_matches (w : CmdWord) (m : Mnemonic) :
    (∃ i, decode w = .ok i ∧ i.mnemonic = m) ↔ w &&& m.row.mask = m.row.pattern :=
  (exists_decode_iff w m).trans (and_mask_eq_pattern_iff w m).symm

/-- The well-formed words of R89 are the words that decode. -/
theorem wellFormed_iff_exists_decode (w : CmdWord) : wellFormed w = true ↔ ∃ i, decode w = .ok i := by
  simp only [wellFormed, List.any_eq_true, OpcodeRow.accepts, beq_iff_eq]
  constructor
  · rintro ⟨r, hr, hw⟩
    rw [mem_opcodeTable_iff.mp hr] at hw
    obtain ⟨i, hi, -⟩ := (exists_decode_iff_matches w r.mnemonic).mpr hw
    exact ⟨i, hi⟩
  · rintro ⟨i, hi⟩
    exact ⟨i.mnemonic.row, mem_opcodeTable_iff.mpr rfl, (exists_decode_iff_matches w i.mnemonic).mp ⟨i, hi, rfl⟩⟩

theorem wellFormed_eq_false_iff (w : CmdWord) : wellFormed w = false ↔ ∃ e, decode w = .error e := by
  rw [← Bool.not_eq_true, wellFormed_iff_exists_decode]
  cases decode w <;> simp

/-- Settles O4: a row asks for its opcode and for the fields that fit, and two rows differ in the opcode. -/
theorem matchAndMask : Obligations.MatchAndMask := by
  refine ⟨fun w m => ?_, fun w r r' hr hr' hw hw' => ?_, wellFormed_eq_false_iff⟩
  · rw [exists_decode_iff_matches]
    constructor
    · intro h
      exact ⟨m.row, mem_opcodeTable_iff.mpr rfl, rfl, h⟩
    · rintro ⟨r, hr, rfl, h⟩
      rwa [mem_opcodeTable_iff.mp hr] at h
  · rw [mem_opcodeTable_iff] at hr hr'
    rw [hr, and_mask_eq_pattern_iff] at hw
    rw [hr', and_mask_eq_pattern_iff] at hw'
    obtain ⟨hop, -⟩ := hw
    obtain ⟨hop', -⟩ := hw'
    rw [hr, hr', mnemonic_opcode_injective (hop.symm.trans hop')]

/-! ## Rejections (R95) -/

/-- The ways in which one of three conditions can fail. -/
theorem not_and_and_iff_or {a b c : Prop} : ¬ (a ∧ b ∧ c) ↔ ¬ a ∨ ¬ b ∨ ¬ c := by rw [not_and_or, not_and_or]

/-- Settles O5: the decoder checks the opcode, then `N` of a `TAILB`, then the fields that must be zero. -/
theorem rejectionsNameTheirCause : Obligations.RejectionsNameTheirCause := by
  intro w e
  constructor
  · intro h
    rcases opcode_cases (opField w) with ho | ho | ho | ho | ho | ho | ho | ho | ho | ho
    · cases (decode_init ho).symm.trans h
    · obtain ⟨hne, rfl⟩ := ite_eq_error_iff.mp ((decode_absb ho).symm.trans h)
      exact ⟨ho, not_and_and_iff_or.mp hne⟩
    · obtain ⟨hne, rfl⟩ := ite_eq_error_iff.mp ((decode_absw ho).symm.trans h)
      exact ⟨ho, not_and_or.mp hne⟩
    · obtain ⟨hne, rfl⟩ := ite_eq_error_iff.mp ((decode_absp ho).symm.trans h)
      exact ⟨ho, not_and_or.mp hne⟩
    · rw [decode_tailb ho] at h
      split at h
      · next hcnt =>
        cases h
        exact ⟨ho, rfl, hcnt⟩
      · next hcnt =>
        obtain ⟨hne, rfl⟩ := ite_eq_error_iff.mp h
        exact ⟨ho, Nat.not_le.mp hcnt, not_and_or.mp hne⟩
    · obtain ⟨hne, rfl⟩ := ite_eq_error_iff.mp ((decode_orw ho).symm.trans h)
      exact ⟨ho, not_and_or.mp hne⟩
    · obtain ⟨hne, rfl⟩ := ite_eq_error_iff.mp ((decode_fin ho).symm.trans h)
      exact ⟨ho, not_and_and_iff_or.mp hne⟩
    · obtain ⟨hne, rfl⟩ := ite_eq_error_iff.mp ((decode_round ho).symm.trans h)
      exact ⟨ho, not_and_and_iff_or.mp hne⟩
    · obtain ⟨hne, rfl⟩ := ite_eq_error_iff.mp ((decode_clr ho).symm.trans h)
      exact ⟨ho, not_and_and_iff_or.mp hne⟩
    · cases (decode_reserved ho).symm.trans h
      exact ⟨rfl, ho⟩
  · intro h
    cases e with
    | reservedOpcode op =>
      obtain ⟨rfl, ho⟩ := h
      exact decode_reserved ho
    | tailCount n =>
      obtain ⟨ho, rfl, hcnt⟩ := h
      exact (decode_tailb ho).trans (if_pos hcnt)
    | fieldNotZero m =>
      obtain ⟨ho, hne⟩ := h
      cases m with
      | init => exact hne.elim
      | absb => exact (decode_absb ho).trans (if_neg (not_and_and_iff_or.mpr hne))
      | absw => exact (decode_absw ho).trans (if_neg (not_and_or.mpr hne))
      | absp => exact (decode_absp ho).trans (if_neg (not_and_or.mpr hne))
      | tailb =>
        obtain ⟨hcnt, hne⟩ := hne
        exact (decode_tailb ho).trans ((if_neg (Nat.not_le.mpr hcnt)).trans (if_neg (not_and_or.mpr hne)))
      | orw => exact (decode_orw ho).trans (if_neg (not_and_or.mpr hne))
      | fin => exact (decode_fin ho).trans (if_neg (not_and_and_iff_or.mpr hne))
      | round => exact (decode_round ho).trans (if_neg (not_and_and_iff_or.mpr hne))
      | clr => exact (decode_clr ho).trans (if_neg (not_and_and_iff_or.mpr hne))

end Sys2Proof
end

section
/-! The phase table (R96) and the order of checks (R97) for every accepted word. -/

namespace Sys2Proof.Machine

/-! ## Entries of the phase table (R96) -/

/-- An entry `->X` of a row names the row's next phase. -/
theorem eq_next_of_within {legal : List Phase} {p next q : Phase} (h : Legality.within legal p next = .goesTo q) :
    next = q := by
  rw [Legality.within, if_pos (mem_of_within_eq_goesTo h)] at h
  cases h
  rfl

/-- A command that completes leaves the phase of its entry in the table. -/
theorem effect_ph_of_goesTo {i : Instr} {e : Engine} {p : Phase} (h : phaseTable i e.ph = .goesTo p) :
    (effect i e).ph = p := by
  have hstays (hrow : Legality.within [.absorb] e.ph .absorb = .goesTo p) : e.ph = p :=
    (eq_absorb_of_within hrow).trans (eq_next_of_within hrow)
  cases i with
  | init klen len key => rw [phaseTable] at h; split at h <;> cases h; rfl
  | absb bytes => exact hstays h
  | absw m => exact hstays h
  | absp first second => exact hstays h
  | clr => cases h; rfl
  | _ => exact eq_next_of_within h

/-- A command that completes raises no error. -/
theorem effect_err_of_ok {e : Engine} (h : e.err = .ok) (i : Instr) : (effect i e).err = .ok := by
  cases i with
  | clr => rfl
  | _ => exact h

/-- Settles O31: the command ends in the way its entry of the table says. -/
theorem phaseTableDecidesEveryCommand : Obligations.PhaseTableDecidesEveryCommand := by
  intro w i s hd he
  obtain ⟨t, ht, hexec⟩ := exec_executes i s
  refine ⟨t, (acceptWord_of_ok hd s).trans ht, ?_⟩
  cases hexec with
  | ignored hfrozen _ => exact absurd he hfrozen
  | completes _ hp =>
    rw [hp]
    exact ⟨effect_err_of_ok he i, effect_ph_of_goesTo hp⟩
  | outOfPhase _ hp => rw [hp]
  | wrongKeyLength _ hp => rw [hp]

/-! ## The order of checks (R97) -/

/-- A frozen engine obeys the word of `CLR` and ignores every other. -/
theorem acceptWord_eq_of_frozen {s : State} (he : s.eng.err ≠ .ok) (w : CmdWord) :
    acceptWord w s = if w = encode .clr then exec .clr s else .next s := by
  have heng : engineAfterWord w s.eng = if w = encode .clr then Engine.zero else s.eng :=
    acceptWord_of_frozen he (acceptWord_eq w s)
  rw [acceptWord_eq, heng]
  split <;> rfl

theorem phaseTable_init_eq_keyLength_iff (klen : Byte) (len : Word) (key : BitVec 128) (p : Phase) :
    phaseTable (.init klen len key) p = .keyLength ↔ klen ≠ 16 := by
  constructor
  · rintro h rfl
    cases h
  · exact fun hklen => if_neg hklen

/-- The key length that the table looks at is the field `N` of the word. -/
theorem phaseTable_eq_keyLength_iff {w : CmdWord} {i : Instr} (hd : decode w = .ok i) (p : Phase) :
    phaseTable i p = .keyLength ↔ i.mnemonic = .init ∧ nField w ≠ 16 := by
  cases i with
  | init klen len key =>
    have hklen : nField w = klen := by rw [← encode_of_decode hd, encode, nField_assembleFields]
    rw [phaseTable_init_eq_keyLength_iff, hklen]
    exact (and_iff_right rfl).symm
  | _ => exact iff_of_false (fun h => nomatch mnemonic_eq_init_of_keyLength h) nofun

/-- Steps 3 to 5 of R97: out of phase, of wrong key length, or executed. -/
theorem exec_eq_of_ok {w : CmdWord} {i : Instr} (hd : decode w = .ok i) {s : State} (he : s.eng.err = .ok) :
    exec i s =
      if phaseTable i s.eng.ph = .seq then .next { s with eng := { s.eng with err := .sequence } }
      else if i.mnemonic = .init ∧ nField w ≠ 16 then .next { s with eng := { s.eng with err := .keylen } }
      else exec i s := by
  obtain ⟨t, ht, hexec⟩ := exec_executes i s
  simp only [← phaseTable_eq_keyLength_iff hd s.eng.ph]
  cases hexec with
  | ignored hfrozen _ => exact absurd he hfrozen
  | completes _ hp => rw [if_neg (by simp [hp]), if_neg (by simp [hp])]
  | outOfPhase _ hp => rw [if_pos hp, ht]
  | wrongKeyLength _ hp => rw [if_neg (by simp [hp]), if_pos hp, ht]

/-- Settles O32: the frozen check, then the decoder, then the phase table. -/
theorem orderOfChecks : Obligations.OrderOfChecks := by
  intro w s
  rw [← encode_clr]
  by_cases he : s.eng.err = .ok
  · rw [if_neg (not_not.mpr he)]
    rcases hd : decode w with r | i
    · rw [if_pos ((wellFormed_eq_false_iff w).mpr ⟨r, hd⟩), acceptWord_of_error hd, illegalWord_eq, if_pos he]
    · have hwf : wellFormed w = true := (wellFormed_iff_exists_decode w).mpr ⟨i, hd⟩
      rw [if_neg (by simp [hwf]), acceptWord_of_ok hd]
      exact exec_eq_of_ok hd he
  · rw [if_pos he, acceptWord_eq_of_frozen he]

end Sys2Proof.Machine
end

section
/-! The 52 hexadecimal digits of a command word (R82). -/

namespace Sys2Proof.Machine

/-- A digit that is written reads back as its value. -/
theorem hexValue_hexDigit (d : BitVec 4) : hexValue (hexDigit d) = some d.toNat := by
  revert d
  decide

/-- The lowest `k` digits of a word, most significant first. -/
def lowDigits (w : CmdWord) (k : Nat) : List Char :=
  (List.range k).map fun j => hexDigit (w.extractLsb' (4 * (k - 1 - j)) 4)

theorem writtenWord_eq_lowDigits (w : CmdWord) : writtenWord w = lowDigits w 52 := rfl

theorem length_lowDigits (w : CmdWord) (k : Nat) : (lowDigits w k).length = k := by
  rw [lowDigits, List.length_map, List.length_range]

/-- The lowest `k + 1` digits are digit `k` and the lowest `k`. -/
theorem lowDigits_succ (w : CmdWord) (k : Nat) :
    lowDigits w (k + 1) = hexDigit (w.extractLsb' (4 * k) 4) :: lowDigits w k := by
  rw [lowDigits, List.range_succ_eq_map, List.map_cons, List.map_map, lowDigits]
  refine congrArg _ (List.map_congr_left fun j _ => ?_)
  rw [Function.comp_apply, show k + 1 - 1 - (j + 1) = k - 1 - j by omega]

/-- Reading the lowest `k` digits after `acc` appends them to it in base 16. -/
theorem readDigits_lowDigits (w : CmdWord) (k acc : Nat) :
    readDigits hexValue 16 acc (lowDigits w k) = some (16 ^ k * acc + w.toNat % 16 ^ k) := by
  induction k generalizing acc with
  | zero => simp [lowDigits, readDigits, Nat.mod_one]
  | succ k ih =>
    have hdigit : (w.extractLsb' (4 * k) 4).toNat = w.toNat / 16 ^ k % 16 := by
      rw [BitVec.extractLsb'_toNat, Nat.shiftRight_eq_div_pow, Nat.pow_mul]
    rw [lowDigits_succ, readDigits, hexValue_hexDigit]
    calc readDigits hexValue 16 (16 * acc + (w.extractLsb' (4 * k) 4).toNat) (lowDigits w k)
        = some (16 ^ k * (16 * acc + w.toNat / 16 ^ k % 16) + w.toNat % 16 ^ k) := by rw [ih, hdigit]
      _ = some (16 ^ (k + 1) * acc + w.toNat % 16 ^ (k + 1)) := by rw [Nat.mod_pow_succ, Nat.pow_succ]; ring_nf

/-- Settles O53: 52 digits in base 16 hold the 208 bits. -/
theorem writtenWordReadsBack : Obligations.WrittenWordReadsBack := by
  intro w
  have hmod : w.toNat % 16 ^ 52 = w.toNat := Nat.mod_eq_of_lt w.isLt
  rw [writtenWord_eq_lowDigits, readWord, if_pos (length_lowDigits w 52), readDigits_lowDigits, hmod, Nat.mul_zero,
    Nat.zero_add, Option.map_some, BitVec.ofNat_toNat, BitVec.setWidth_eq]

end Sys2Proof.Machine
end

section
/-! `SipRound` (R120) is two half rounds, each undone step by step, so it is a bijection (R123); `ROUND` (R121) is one of
it. -/

namespace Sys2Proof.Machine

/-! ## Rotating back (R7, R123) -/

/-- Rotating left by `n` and then by `64 - n` is a whole turn. -/
theorem rotl64_rotl64_sub (a : Word) {n : Nat} (h0 : 0 < n) (hn : n ≤ 63) : rotl64 (rotl64 a n) (64 - n) = a := by
  refine BitVec.eq_of_getLsbD_eq fun j hj => ?_
  rw [getLsbD_rotl64 _ (by omega) hj]
  by_cases hwrap : j < 64 - n
  · rw [if_pos hwrap, getLsbD_rotl64 a hn (by omega), if_neg (by omega), show j + 64 - (64 - n) - n = j by omega]
  · rw [if_neg hwrap, getLsbD_rotl64 a hn (by omega), if_pos (by omega), show j - (64 - n) + 64 - n = j by omega]

theorem rotr64_rotl64 (a : Word) {n : Nat} (h0 : 0 < n) (hn : n ≤ 63) : rotr64 (rotl64 a n) n = a :=
  rotl64_rotl64_sub a h0 hn

theorem rotl64_rotr64 (a : Word) {n : Nat} (h0 : 0 < n) (hn : n ≤ 63) : rotl64 (rotr64 a n) n = a := by
  have hback := rotl64_rotl64_sub a (n := 64 - n) (by omega) (by omega)
  rwa [show 64 - (64 - n) = n by omega] at hback

/-! ## Half rounds -/

/-- Half of `SipRound`: v0 and v2 each add their neighbour, the neighbours are rotated by `m` and `n` and XORed with the
sums, the first sum is rotated by 32, and v0 and v2 change places. -/
def halfRound (m n : Nat) (p : Perm) : Perm :=
  { v0 := p.v2 + p.v3
    v1 := rotl64 p.v1 m ^^^ (p.v0 + p.v1)
    v2 := rotl64 (p.v0 + p.v1) 32
    v3 := rotl64 p.v3 n ^^^ (p.v2 + p.v3) }

/-- The steps of a half round undone: rotate right, XOR again, subtract (R123). -/
def halfRoundInverse (m n : Nat) (p : Perm) : Perm :=
  let v1 := rotr64 (p.v1 ^^^ rotr64 p.v2 32) m
  let v3 := rotr64 (p.v3 ^^^ p.v0) n
  { v0 := rotr64 p.v2 32 - v1, v1 := v1, v2 := p.v0 - v3, v3 := v3 }

/-- The fourteen steps of R120 are two half rounds. -/
theorem sipRound_eq_halfRounds (p : Perm) : sipRound p = halfRound 17 21 (halfRound 13 16 p) := rfl

/-- The listing of R123 undoes the two half rounds, the second one first. -/
theorem sipRoundInverse_eq_halfRoundInverses (p : Perm) :
    sipRoundInverse p = halfRoundInverse 13 16 (halfRoundInverse 17 21 p) := rfl

section
variable {m n : Nat} (hm0 : 0 < m) (hm : m ≤ 63) (hn0 : 0 < n) (hn : n ≤ 63)
include hm0 hm hn0 hn

theorem halfRoundInverse_halfRound (p : Perm) : halfRoundInverse m n (halfRound m n p) = p := by
  have hrot : rotr64 (rotl64 (p.v0 + p.v1) 32) 32 = p.v0 + p.v1 := rotr64_rotl64 _ (by decide) (by decide)
  simp only [halfRoundInverse, halfRound, hrot, xor_cancel_right, rotr64_rotl64 _ hm0 hm, rotr64_rotl64 _ hn0 hn,
    BitVec.add_sub_cancel]

theorem halfRound_halfRoundInverse (p : Perm) : halfRound m n (halfRoundInverse m n p) = p := by
  have hrot : rotl64 (rotr64 p.v2 32) 32 = p.v2 := rotl64_rotr64 _ (by decide) (by decide)
  simp only [halfRoundInverse, halfRound, BitVec.sub_add_cancel, rotl64_rotr64 _ hm0 hm, rotl64_rotr64 _ hn0 hn,
    xor_cancel_right, hrot]

end

/-! ## `SipRound` (R120, R123) -/

theorem sipRoundInverse_sipRound (p : Perm) : sipRoundInverse (sipRound p) = p := by
  rw [sipRound_eq_halfRounds, sipRoundInverse_eq_halfRoundInverses, halfRoundInverse_halfRound,
    halfRoundInverse_halfRound] <;> decide

theorem sipRound_sipRoundInverse (p : Perm) : sipRound (sipRoundInverse p) = p := by
  rw [sipRound_eq_halfRounds, sipRoundInverse_eq_halfRoundInverses, halfRound_halfRoundInverse,
    halfRound_halfRoundInverse] <;> decide

theorem sipRound_bijective : Function.Bijective sipRound :=
  Function.bijective_iff_has_inverse.mpr ⟨sipRoundInverse, sipRoundInverse_sipRound, sipRound_sipRoundInverse⟩

theorem sipRound_zero : sipRound ⟨0, 0, 0, 0⟩ = ⟨0, 0, 0, 0⟩ := by decide

/-- Settles O9: the listing of R123 undoes the two half rounds of `SipRound` from either side. -/
theorem sipRoundIsABijection : Obligations.SipRoundIsABijection :=
  ⟨sipRound_bijective, sipRoundInverse_sipRound, sipRound_sipRoundInverse, sipRound_zero⟩

/-- Settles O7: the closed form names the sums and XORs of the fourteen steps, which are the model's own. -/
theorem sipRoundClosedForm : Obligations.SipRoundClosedForm := ⟨fun _ => rfl, by decide⟩

/-! ## `ROUND` (R121) -/

theorem exec_round_of_absorb {s : State} (h : s.eng.err = .ok) (hp : s.eng.ph = .absorb) :
    exec .round s = .next { s with eng := { s.eng with v := sipRound s.eng.v } } := by
  have hexec : exec .round s = .next { s with eng := effect .round s.eng } :=
    (unlessFrozen_of_ok h).trans (inPhase_of_mem (by simp [hp]))
  rw [hexec, effect_round_of_absorb hp]

/-- Settles O17: `ROUND` is legal in `ABSORB`, the phase it writes; the example is one evaluation of `SipRound`. -/
theorem roundCompletes : Obligations.RoundCompletes := ⟨fun _ => exec_round_of_absorb, by decide⟩

end Sys2Proof.Machine
end

section
/-! The preamble (R140 to R144): the state `INIT` writes, the length tag, the words every key leaves, and how a
computation forgets the engine it started on. -/

namespace Sys2Proof.Machine

/-! ## A computation starts afresh (R32, R60, R140) -/

/-- The engine after a list of accepted words; `runWords_eq` ties it to the model's run. -/
def engineAfterWords (ws : List CmdWord) (e : Engine) : Engine := ws.foldl (fun e w => engineAfterWord w e) e

@[simp] theorem engineAfterWords_nil (e : Engine) : engineAfterWords [] e = e := rfl

@[simp] theorem engineAfterWords_cons (w : CmdWord) (ws : List CmdWord) (e : Engine) :
    engineAfterWords (w :: ws) e = engineAfterWords ws (engineAfterWord w e) := rfl

/-- A run of accepted words always answers, and what it does to the engine depends on the engine alone. -/
theorem runWords_eq (ws : List CmdWord) (s : State) :
    runWords ws s = .next { s with eng := engineAfterWords ws s.eng } := by
  induction ws generalizing s with
  | nil => rfl
  | cons w ws ih =>
    rw [runWords_cons_of_next (acceptWord_eq w s), ih, engineAfterWords_cons]

/-- The preamble reads nothing of the engine but `err`. -/
theorem initEngine_eq_of_err {e e' : Engine} (h : e.err = e'.err) (len : Word) (key : BitVec 128) :
    initEngine len key e = initEngine len key e' := by
  rw [initEngine, initEngine, h]

/-- The word of `INIT` with `KLEN = 16` runs the preamble on an unfrozen engine. -/
theorem engineAfterWord_init {e : Engine} (h : e.err = .ok) (len : Word) (key : BitVec 128) :
    engineAfterWord (encode (.init 16 len key)) e = initEngine len key e := by
  rw [engineAfterWord, decode_encode]
  exact if_pos (.inl h)

/-- Settles O46: the run is a fold over the engine alone, and the preamble leaves both engines the same. -/
theorem computationDependsOnlyOnItsCommands : Obligations.ComputationDependsOnlyOnItsCommands := by
  intro s s' len key ws h h'
  refine ⟨_, _, runWords_eq _ s, runWords_eq _ s', ?_⟩
  simp only [engineAfterWords_cons, engineAfterWord_init h, engineAfterWord_init h',
    initEngine_eq_of_err (h.trans h'.symm)]

/-! ## The state the preamble writes (R140, R142) -/

/-- Settles O11: the preamble's state, whose `err` is the one the unfrozen engine had. -/
theorem initCompletes : Obligations.InitCompletes := by
  intro s len key h
  rw [exec_init_of_ok h, initEngine, h]
  rfl

/-- The length tag keeps no bit of `LEN` above its low byte (R142). -/
theorem lengthTag_eq_low_byte (len : Word) : lengthTag len = (len.extractLsb' 0 8).setWidth 64 <<< 56 := by
  apply BitVec.eq_of_getLsbD_eq
  intro i hi
  rw [getLsbD_lengthTag len hi, BitVec.getLsbD_shiftLeft, BitVec.getLsbD_setWidth, BitVec.getLsbD_extractLsb',
    Nat.zero_add]
  by_cases h : 56 ≤ i
  · simp [h, hi, show ¬ i < 56 by omega, show i - 56 < 8 by omega, show i - 56 < 64 by omega]
  · simp [h, show i < 56 by omega]

/-- The low bytes of two lengths are equal when the lengths agree modulo 256. -/
theorem extractLsb'_low_byte_eq_iff (len len' : Word) :
    len.extractLsb' 0 8 = len'.extractLsb' 0 8 ↔ len.toNat % 256 = len'.toNat % 256 := by
  simp [← BitVec.toNat_inj]

/-- Two lengths have one tag exactly when they agree modulo 256 (R142). -/
theorem lengthTag_eq_iff (len len' : Word) : lengthTag len = lengthTag len' ↔ len.toNat % 256 = len'.toNat % 256 := by
  rw [← extractLsb'_low_byte_eq_iff]
  constructor
  · intro h
    rw [← extractLsb'_top_lengthTag, h, extractLsb'_top_lengthTag]
  · intro h
    rw [lengthTag_eq_low_byte, h, ← lengthTag_eq_low_byte]

/-- Lengths act on the preamble's state through their tags alone. -/
theorem initEngine_eq_iff (len len' : Word) (key : BitVec 128) (e : Engine) :
    initEngine len key e = initEngine len' key e ↔ lengthTag len = lengthTag len' := by
  simp [initEngine]

/-- Settles O13: the accumulator is the tag, and the tag is all that a length puts into the state. -/
theorem lengthTagIsTheLowByte : Obligations.LengthTagIsTheLowByte := by
  intro s t len key he h
  rw [exec_init_of_ok he] at h
  cases h
  refine ⟨lengthTag_eq_low_byte len, extractLsb'_top_lengthTag len, extractLsb'_low_lengthTag len, fun len' => ?_⟩
  rw [exec_init_of_ok he, ← lengthTag_eq_iff, ← initEngine_eq_iff len' len key s.eng]
  simp

/-! ## The permutation words after the preamble (R141, R144) -/

/-- A word XORed into two others leaves their XOR. -/
theorem xor_xor_xor_cancel (c d k : Word) : (c ^^^ k) ^^^ (d ^^^ k) = c ^^^ d := by
  rw [BitVec.xor_comm d, BitVec.xor_assoc, ← BitVec.xor_assoc k, BitVec.xor_self, BitVec.zero_xor]

/-- `k0` goes into both even words, so it cancels. -/
theorem initialPerm_v0_xor_v2 (k0 k1 : Word) :
    (initialPerm k0 k1).v0 ^^^ (initialPerm k0 k1).v2 = 0x1f160a001e161714 :=
  (xor_xor_xor_cancel _ _ k0).trans (by decide)

/-- `k1` goes into both odd words, so it cancels. -/
theorem initialPerm_v1_xor_v3 (k0 k1 : Word) :
    (initialPerm k0 k1).v1 ^^^ (initialPerm k0 k1).v3 = 0x100a160317100a1e :=
  (xor_xor_xor_cancel _ _ k1).trans (by decide)

/-- Words whose XOR is not zero are not both zero. -/
theorem not_both_zero_of_xor {a b c : Word} (h : a ^^^ b = c) (hc : c ≠ 0) : ¬(a = 0 ∧ b = 0) := by
  rintro ⟨rfl, rfl⟩
  exact hc (h.symm.trans BitVec.xor_self)

/-- A key word equal to a constant zeroes the word it is XORed into. -/
theorem xor_eq_zero_of_key_eq {c k : Word} (h : k = c) : c ^^^ k = 0 := by
  rw [h]
  exact BitVec.xor_self

/-- The zero key leaves the four constants. -/
theorem initialPerm_zero_key :
    initialPerm (keyWord0 0) (keyWord1 0) =
      ⟨0x736f6d6570736575, 0x646f72616e646f6d, 0x6c7967656e657261, 0x7465646279746573⟩ := by
  decide

/-- The cancelling key of R144 is the two constants of v0 and v1 in big-endian lanes. -/
theorem initialPerm_cancelling_key :
    initialPerm (keyWord0 0x6d6f646e61726f6475657370656d6f73) (keyWord1 0x6d6f646e61726f6475657370656d6f73) =
      ⟨0, 0, 0x1f160a001e161714, 0x100a160317100a1e⟩ := by
  decide

/-- Settles O14: each part is about `initialPerm` of the two key words, which `INIT` writes. -/
theorem keysNeverZeroAllWords : Obligations.KeysNeverZeroAllWords := by
  intro s len key h
  have heven := initialPerm_v0_xor_v2 (keyWord0 key) (keyWord1 key)
  have hodd := initialPerm_v1_xor_v3 (keyWord0 key) (keyWord1 key)
  refine ⟨_, exec_init_of_ok h len key, h, heven, hodd, not_both_zero_of_xor heven (by decide),
    not_both_zero_of_xor hodd (by decide), xor_eq_zero_of_key_eq, xor_eq_zero_of_key_eq, xor_eq_zero_of_key_eq,
    xor_eq_zero_of_key_eq, ?_, ?_⟩
  · rintro rfl
    exact initialPerm_zero_key
  · rintro rfl
    exact initialPerm_cancelling_key

/-! ## The error end of an entry point (R143, R207, R227) -/

/-- Settles O52: the leading `INIT` latches `KEYLEN`, under which no digest is shown, and the driver's `CLR` discards. -/
theorem wrongKeyLengthEndsTheEntryPoint : Obligations.WrongKeyLengthEndsTheEntryPoint := by
  intro s key len is h hk his
  have hvalid : dvalid { s.eng with err := .keylen } = false := dvalid_of_err_ne nofun
  exact ⟨_, runWords_computation_of_length_ne h hk len his, rfl, rfl, hvalid, dout_of_not_dvalid hvalid,
    driverResult_of_keylen rfl, fun discardDigest => callEntry_computation_of_length_ne discardDigest h hk len his⟩

end Sys2Proof.Machine
end

section
/-! Absorbing blocks (R150 to R158): one `Compress` behind the three paths, its inverse, and the 64-bit tuple forms on the
byte path. -/

namespace Sys2Proof.Machine

/-! ## `Compress` is undone step by step (R150, R158) -/

theorem xorV3_xorV3 (m : Word) (p : Perm) : xorV3 m (xorV3 m p) = p := by
  simp only [xorV3, xor_cancel_right]

theorem xorV0_xorV0 (m : Word) (p : Perm) : xorV0 m (xorV0 m p) = p := by
  simp only [xorV0, xor_cancel_right]

theorem compressInverse_compress (m : Word) (p : Perm) : compressInverse m (compress m p) = p := by
  rw [compressInverse, compress, xorV0_xorV0, sipRoundInverse_sipRound, sipRoundInverse_sipRound, xorV3_xorV3]

theorem compress_compressInverse (m : Word) (p : Perm) : compress m (compressInverse m p) = p := by
  rw [compress, compressInverse, xorV3_xorV3, sipRound_sipRoundInverse, sipRound_sipRoundInverse, xorV0_xorV0]

theorem compress_bijective (m : Word) : Function.Bijective (compress m) :=
  Function.bijective_iff_has_inverse.mpr
    ⟨compressInverse m, compressInverse_compress m, compress_compressInverse m⟩

/-- Settles O10: the inverse that the rule writes out is `compressInverse`, which undoes `Compress` from either side. -/
theorem compressIsABijection : Obligations.CompressIsABijection := fun m =>
  ⟨compress_bijective m, compress_compressInverse m⟩

/-! ## The three paths of the datapath (R151 to R154) -/

/-- The integer path takes the block word as it stands, and so does the byte path. -/
theorem exec_absw_eq_absb (m : Word) (s : State) : exec (.absw m) s = exec (.absb m) s := rfl

/-- The chunk of the bytes of an integer carries the integer (R53). -/
theorem laneField_le64Bytes (w : Word) : laneField 64 (le64Bytes w) = w := le64_le64Bytes w

/-- The packed path is the byte path on the block word of the pair. -/
theorem exec_absp_eq_absb (first second : BitVec 32) (s : State) :
    exec (.absp first second) s = exec (.absb (blockOfPair first second)) s := rfl

/-- Settles O15: the byte path completes with `Compress` of its block word, and the other two paths are the byte path. -/
theorem absorbCommandsComplete : Obligations.AbsorbCommandsComplete := by
  intro s h hp m q t
  have hbytes : exec (.absb m) s = .next t := exec_absb_of_absorb h hp m
  refine ⟨hbytes, (exec_absw_eq_absb m s).trans hbytes, ?_⟩
  rintro first second rfl
  exact (exec_absp_eq_absb first second s).trans hbytes

/-! ## The packed pair (R153, R157) -/

/-- The block word of a pair has the second integer in its high half, the first in its low half. -/
theorem blockOfPair_eq_append (first second : BitVec 32) : blockOfPair first second = second ++ first := by
  apply BitVec.eq_of_getLsbD_eq
  intro i hi
  rw [blockOfPair, BitVec.getLsbD_append, BitVec.getLsbD_or, BitVec.getLsbD_shiftLeft, BitVec.getLsbD_setWidth,
    BitVec.getLsbD_setWidth]
  by_cases hlow : i < 32
  · simp [hlow, hi]
  · simp [hlow, hi, show i - 32 < 64 by omega, BitVec.getLsbD_of_ge first i (by omega)]

/-- The halves of an integer, packed, are the integer. -/
theorem blockOfPair_halves (x : Word) : blockOfPair (x.extractLsb' 0 32) (x.extractLsb' 32 32) = x := by
  rw [blockOfPair_eq_append, append_extractLsb'_halves]

/-- The bytes of a 32-bit part of a field that begins at lane `k`. -/
theorem le32Bytes_extractLsb' {n : Nat} (f : BitVec n) (k : Nat) :
    le32Bytes (f.extractLsb' (8 * k) 32) = (List.range 4).map fun i => lane f (k + i) :=
  List.map_congr_left fun i hi => lane_extractLsb' f k (by have := List.mem_range.mp hi; omega)

/-- The bytes of a word are those of its low half, then those of its high half. -/
theorem le64Bytes_eq_halves (x : Word) :
    le64Bytes x = le32Bytes (x.extractLsb' 0 32) ++ le32Bytes (x.extractLsb' 32 32) := by
  rw [le32Bytes_extractLsb' x 0, le32Bytes_extractLsb' x 4]
  rfl

/-- The chunk of the encodings of the two integers carries the block word of the pair. -/
theorem laneField_le32Bytes_append (first second : BitVec 32) :
    laneField 64 (le32Bytes first ++ le32Bytes second) = blockOfPair first second := by
  have hbytes : le64Bytes (blockOfPair first second) = le32Bytes first ++ le32Bytes second := by
    rw [le64Bytes_eq_halves, blockOfPair_eq_append, BitVec.extractLsb'_append_eq_right, BitVec.extractLsb'_append_eq_left]
  rw [← hbytes, laneField_le64Bytes]

/-- Settles O16: all three paths compress the block word of the pair, which the halves of `x` make `x` again. -/
theorem packedPairIsOneInteger : Obligations.PackedPairIsOneInteger := by
  refine ⟨fun s x => ?_, fun s first second => ⟨?_, ?_⟩⟩
  · rw [exec_absp_eq_absb, blockOfPair_halves, exec_absw_eq_absb]
  · exact exec_absp_eq_absb first second s
  · rw [laneField_le32Bytes_append, exec_absp_eq_absb]

/-! ## The 64-bit tuple forms (R156, R201 to R204) -/

/-- The computation on a tuple of integers, of any arity; `digest1x64Program_eq` to `digest4x64Program_eq` tie it to the
entry points. -/
def tupleProgram (key : List Byte) (ws : List Word) : List Instr :=
  computation key (8 * ws.length) (ws.map .absw)

/-- The concatenated little-endian encodings of a tuple (R156). -/
def tupleBytes (ws : List Word) : List Byte := ws.flatMap le64Bytes

theorem tupleBytes_nil : tupleBytes [] = [] := rfl

theorem tupleBytes_cons (w : Word) (ws : List Word) : tupleBytes (w :: ws) = le64Bytes w ++ tupleBytes ws :=
  List.flatMap_cons

theorem length_tupleBytes (ws : List Word) : (tupleBytes ws).length = 8 * ws.length := by
  induction ws with
  | nil => rfl
  | cons w ws ih =>
    rw [tupleBytes_cons, List.length_append, length_le64Bytes, ih, List.length_cons]
    omega

/-- A driver reduces a 64-bit argument to itself (R208). -/
theorem wordCommand_toNat (a : Word) : wordCommand a.toNat = .absw a := by
  rw [wordCommand, BitVec.ofNat_toNat, BitVec.setWidth_eq]

section
variable (key : List Byte) (a b c d : Word)

theorem digest1x64Program_eq : digest1x64Program key a.toNat = tupleProgram key [a] := by
  rw [digest1x64Program, wordCommand_toNat]
  rfl

theorem digest2x64Program_eq : digest2x64Program key a.toNat b.toNat = tupleProgram key [a, b] := by
  rw [digest2x64Program, wordCommand_toNat, wordCommand_toNat]
  rfl

theorem digest3x64Program_eq : digest3x64Program key a.toNat b.toNat c.toNat = tupleProgram key [a, b, c] := by
  rw [digest3x64Program, wordCommand_toNat, wordCommand_toNat, wordCommand_toNat]
  rfl

theorem digest4x64Program_eq :
    digest4x64Program key a.toNat b.toNat c.toNat d.toNat = tupleProgram key [a, b, c, d] := by
  rw [digest4x64Program, wordCommand_toNat, wordCommand_toNat, wordCommand_toNat, wordCommand_toNat]
  rfl

end

/-- The chunks of the encodings carry the integers themselves. -/
theorem chunkCommands_tupleBytes (ws : List Word) : chunkCommands ws.length (tupleBytes ws) = ws.map .absb := by
  induction ws with
  | nil => rfl
  | cons w ws ih =>
    rw [List.length_cons, chunkCommands_succ, tupleBytes_cons, List.take_left' (length_le64Bytes w),
      List.drop_left' (length_le64Bytes w), laneField_le64Bytes, ih, List.map_cons]

/-- The byte form of the encodings: one `ABSB` an integer, and no trailing bytes. -/
theorem digestProgram_tupleBytes (key : List Byte) (ws : List Word) :
    digestProgram key (tupleBytes ws) = computation key (8 * ws.length) (ws.map .absb) := by
  have hchunks : (tupleBytes ws).length / 8 = ws.length := by rw [length_tupleBytes]; omega
  have htail : (tupleBytes ws).drop (8 * ws.length) = [] := List.drop_eq_nil_of_le (length_tupleBytes ws).le
  rw [digestProgram, byteCommands, hchunks, htail, chunkCommands_tupleBytes, length_tupleBytes]
  exact congrArg (computation key _) (List.append_nil _)

/-- Commands with one effect may replace each other at the head of a program. -/
theorem runWords_programWords_cons_congr {i j : Instr} {is js : List Instr} (hij : ∀ s, exec i s = exec j s)
    (h : ∀ s, runWords (programWords is) s = runWords (programWords js) s) (s : State) :
    runWords (programWords (i :: is)) s = runWords (programWords (j :: js)) s := by
  obtain ⟨t, ht, -⟩ := exec_executes j s
  rw [runWords_programWords_cons ht, runWords_programWords_cons ((hij s).trans ht), h]

/-- Integers absorbed on the integer path and on the byte path, before any further commands. -/
theorem runWords_map_absw (ws : List Word) (is : List Instr) (s : State) :
    runWords (programWords (ws.map .absw ++ is)) s = runWords (programWords (ws.map .absb ++ is)) s := by
  induction ws generalizing s with
  | nil => rfl
  | cons w ws ih => exact runWords_programWords_cons_congr (exec_absw_eq_absb w) ih s

/-- A tuple form does in every state, with every key, what the byte form of the encodings does (R156). -/
theorem runWords_tupleProgram (key : List Byte) (ws : List Word) (s : State) :
    runWords (programWords (tupleProgram key ws)) s = runWords (programWords (digestProgram key (tupleBytes ws))) s := by
  rw [digestProgram_tupleBytes]
  exact runWords_programWords_cons_congr (fun _ => rfl) (runWords_map_absw ws [.fin]) s

/-- On an unfrozen engine, with a 16-byte key, both forms end with one digest. -/
theorem tupleProgram_ends_as_digestProgram {s : State} {key : List Byte} (h : s.eng.err = .ok) (hk : key.length = 16)
    (ws : List Word) :
    ∃ t u, runWords (programWords (tupleProgram key ws)) s = .next t ∧
      runWords (programWords (digestProgram key (tupleBytes ws))) s = .next u ∧ t.eng = u.eng ∧ t.eng.ph = .done := by
  have hbytes := runWords_digestProgram (tupleBytes ws) h hk
  exact ⟨_, _, (runWords_tupleProgram key ws s).trans hbytes, hbytes, rfl, digestEngine_ph key _⟩

/-- Settles O49: a chunk of the bytes of an integer carries the integer, so each tuple form runs as its byte form. -/
theorem fastPathsEqualTheBytePath : Obligations.FastPathsEqualTheBytePath := by
  refine ⟨fun s a => ⟨exec_absw_eq_absb a s, ?_⟩, fun key a b c d hk s h => ?_⟩
  · rw [laneField_le64Bytes, exec_absw_eq_absb]
  · have hforms := tupleProgram_ends_as_digestProgram h hk
    rw [digest1x64Program_eq, digest2x64Program_eq, digest3x64Program_eq, digest4x64Program_eq]
    have hall := And.intro (hforms [a]) (And.intro (hforms [a, b]) (And.intro (hforms [a, b, c]) (hforms [a, b, c, d])))
    simpa only [tupleBytes_cons, tupleBytes_nil, List.append_nil, List.append_assoc] using hall

end Sys2Proof.Machine
end

section
/-! The fold of the partial last block (R170 to R178): how `exec` goes by the table of R96 on an unfrozen engine, the
number that `TAILB` ORs into b, `ORW` beside it, and the tail of a byte string. -/

namespace Sys2Proof.Machine

/-! ## Commands by their entry in the phase table (R96) -/

/-- A legal command leaves its effect. -/
theorem exec_of_goesTo {i : Instr} {s : State} {p : Phase} (h : s.eng.err = .ok) (hp : phaseTable i s.eng.ph = .goesTo p) :
    exec i s = .next { s with eng := effect i s.eng } := by
  obtain ⟨t, ht, hexec⟩ := exec_executes i s
  rw [ht, hexec.eq_engineAfter, engineAfter, if_pos (.inl h), hp]

/-- A command out of phase latches `SequenceError` and changes nothing else (R222, R226). -/
theorem exec_of_seq {i : Instr} {s : State} (h : s.eng.err = .ok) (hp : phaseTable i s.eng.ph = .seq) :
    exec i s = .next { s with eng := { s.eng with err := .sequence } } := by
  obtain ⟨t, ht, hexec⟩ := exec_executes i s
  rw [ht, hexec.eq_engineAfter, engineAfter, if_pos (.inl h), hp]

/-- The three absorb commands share a row. -/
theorem phaseTable_of_absorbs {i : Instr} (hi : i.mnemonic = .absb ∨ i.mnemonic = .absw ∨ i.mnemonic = .absp) (p : Phase) :
    phaseTable i p = Legality.within [.absorb] p .absorb := by
  cases i with
  | absb bytes => rfl
  | absw m => rfl
  | absp first second => rfl
  | _ => simp [Instr.mnemonic] at hi

/-- The two fold commands share a row. -/
theorem phaseTable_of_folds {i : Instr} (hi : i.mnemonic = .orw ∨ i.mnemonic = .tailb) (p : Phase) :
    phaseTable i p = Legality.within [.absorb] p .tail := by
  cases i with
  | tailb cnt bytes => rfl
  | orw c => rfl
  | _ => simp [Instr.mnemonic] at hi

/-! ## The folded word (R170, R171, R173) -/

/-- A count names at most seven lanes (R90). -/
theorem two_pow_cnt_le (cnt : BitVec 3) : 2 ^ (8 * cnt.toNat) ≤ 2 ^ 56 :=
  Nat.pow_le_pow_right (by decide) (by have := cnt.isLt; omega)

/-- `TAILB` ORs in the operand modulo `2^(8*CNT)`. -/
theorem toNat_tailWord (cnt : BitVec 3) (bytes : Word) :
    (tailWord cnt bytes).toNat = bytes.toNat % 2 ^ (8 * cnt.toNat) := by
  have hpow := two_pow_cnt_le cnt
  rw [tailWord, tailMask_eq, BitVec.toNat_and, BitVec.toNat_ofNat, Nat.mod_eq_of_lt (a := _ - 1) (by omega),
    Nat.and_two_pow_sub_one_eq_mod]

/-- No count reaches the top byte (R171). -/
theorem toNat_tailWord_lt (cnt : BitVec 3) (bytes : Word) : (tailWord cnt bytes).toNat < 2 ^ 56 := by
  calc (tailWord cnt bytes).toNat
      = bytes.toNat % 2 ^ (8 * cnt.toNat) := toNat_tailWord cnt bytes
    _ < 2 ^ (8 * cnt.toNat) := Nat.mod_lt _ (Nat.two_pow_pos _)
    _ ≤ 2 ^ 56 := two_pow_cnt_le cnt

/-- An operand that fits in the first `CNT` lanes passes the mask unchanged. -/
theorem tailWord_of_lt {cnt : BitVec 3} {c : Word} (h : c.toNat < 2 ^ (8 * cnt.toNat)) : tailWord cnt c = c :=
  BitVec.eq_of_toNat_eq ((toNat_tailWord cnt c).trans (Nat.mod_eq_of_lt h))

/-- With `CNT = 0` nothing is folded (R172). -/
theorem tailWord_zero (bytes : Word) : tailWord 0 bytes = 0 := BitVec.and_zero

/-- Only the lanes below `CNT` count (R173). -/
theorem tailWord_congr {cnt : BitVec 3} {x y : Word} (h : ∀ i, i < cnt.toNat → lane x i = lane y i) :
    tailWord cnt x = tailWord cnt y := by
  apply BitVec.eq_of_getLsbD_eq
  intro i _
  rw [getLsbD_tailWord, getLsbD_tailWord]
  by_cases hin : i < 8 * cnt.toNat
  · have hbit : (lane x (i / 8)).getLsbD (i % 8) = (lane y (i / 8)).getLsbD (i % 8) := by rw [h (i / 8) (by omega)]
    rw [getLsbD_lane, getLsbD_lane, Nat.div_add_mod] at hbit
    simpa [hin, Nat.mod_lt] using hbit
  · simp [hin]

/-- A word is its top byte on its low 56 bits. -/
theorem append_extractLsb'_top_low (x : Word) : x.extractLsb' 56 8 ++ x.extractLsb' 0 56 = x := by
  rw [BitVec.extractLsb'_append_extractLsb'_eq_extractLsb' (by decide)]
  exact BitVec.extractLsb'_eq_self

/-- ORing a word without a top byte into a bare tag puts it below the tag. -/
theorem or_eq_append {b t : Word} (hb : b.extractLsb' 0 56 = 0) (ht : t.extractLsb' 56 8 = 0) :
    b ||| t = b.extractLsb' 56 8 ++ t.extractLsb' 0 56 := by
  rw [← append_extractLsb'_top_low (b ||| t), BitVec.extractLsb'_or, BitVec.extractLsb'_or, hb, ht]
  exact congrArg₂ (· ++ ·) BitVec.or_zero BitVec.zero_or

/-! ## `TAILB` (R170 to R173) -/

/-- What `TAILB` does depends on its operands through the folded word alone. -/
theorem exec_tailb_congr {cnt : BitVec 3} {x y : Word} (h : tailWord cnt x = tailWord cnt y) (s : State) :
    exec (.tailb cnt x) s = exec (.tailb cnt y) s :=
  congrArg (foldIntoB · s) h

/-- Settles O20: operands that agree below lane `CNT` fold the same word. -/
theorem unusedTailLanesAreIgnored : Obligations.UnusedTailLanesAreIgnored :=
  ⟨fun s _ _ _ h => exec_tailb_congr (tailWord_congr h) s, by decide⟩

/-- In `ABSORB` the invariant leaves the low 56 bits free for the trailing bytes (R171). -/
theorem exec_tailb_of_engineInv {s : State} (h : s.eng.err = .ok) (hp : s.eng.ph = .absorb) (hs : EngineInv s.eng)
    (cnt : BitVec 3) (bytes : Word) :
    ∃ t, exec (.tailb cnt bytes) s = .next t ∧
      t.eng.b = s.eng.b.extractLsb' 56 8 ++ (tailWord cnt bytes).extractLsb' 0 56 := by
  obtain ⟨hlow, _⟩ := hs.parts_of_absorb hp
  exact ⟨_, exec_tailb_of_absorb h hp cnt bytes, or_eq_append hlow (extractLsb'_top_tailWord cnt bytes)⟩

theorem respectsTag_tailb (tag : Byte) (cnt : BitVec 3) (bytes : Word) : RespectsTag tag (.tailb cnt bytes) :=
  ⟨nofun, nofun, nofun⟩

/-- Settles O21: `TAILB` respects every tag, since the word it folds has no top byte. -/
theorem tailbKeepsTheLengthTag : Obligations.TailbKeepsTheLengthTag := by
  refine ⟨fun s t cnt bytes h => ⟨?_, toNat_tailWord_lt cnt bytes⟩, fun s cnt bytes h hp hs => ?_⟩
  · exact exec_keeps_tag (respectsTag_tailb _ cnt bytes) rfl h
  · exact exec_tailb_of_engineInv h hp hs cnt bytes

/-! ## The tail of a byte string (R172, R200) -/

/-- The full chunks are absorbed by `ABSB`. -/
theorem mnemonic_of_mem_chunkCommands {q : Nat} {bs : List Byte} {i : Instr} (hi : i ∈ chunkCommands q bs) :
    i.mnemonic = .absb := by
  induction q generalizing bs with
  | zero => cases hi
  | succ q ih =>
    rw [chunkCommands_succ] at hi
    rcases List.mem_cons.mp hi with rfl | hi
    · rfl
    · exact ih hi

/-- Trailing bytes, if there are any, are folded by the one `TAILB` of their count. -/
theorem mem_tailCommands_iff {bs : List Byte} {i : Instr} :
    i ∈ tailCommands bs ↔ bs.length ≠ 0 ∧ i = .tailb (BitVec.ofNat 3 bs.length) (laneField 64 bs) := by
  rw [tailCommands]
  split
  · next hempty => simp [hempty]
  · next hne => simp [hne]

theorem length_trailing (data : List Byte) : (Reference.trailing data).length = data.length % 8 := by
  rw [Reference.trailing, List.length_drop]
  omega

/-- A count of one to seven trailing bytes is not 0 in its field (R90). -/
theorem tailCount_ne_zero {n : Nat} (h0 : n ≠ 0) (h7 : n ≤ 7) : BitVec.ofNat 3 n ≠ 0 := by
  intro h
  have hn : n % 8 = 0 := congrArg BitVec.toNat h
  omega

/-- The commands of a byte string hold no empty `TAILB`, and no `TAILB` at all when no bytes are left over. -/
theorem byteCommands_without_empty_tailb {data : List Byte} {i : Instr} (hi : i ∈ byteCommands data) :
    (∀ bytes, i ≠ .tailb 0 bytes) ∧ (data.length % 8 = 0 → i.mnemonic = .absb) := by
  rw [Reference.byteCommands_eq_append] at hi
  rcases List.mem_append.mp hi with hi | hi
  · have habsb := mnemonic_of_mem_chunkCommands hi
    refine ⟨?_, fun _ => habsb⟩
    rintro bytes rfl
    cases habsb
  · obtain ⟨hne, rfl⟩ := mem_tailCommands_iff.mp hi
    constructor
    · intro bytes h
      injection h with hcnt
      exact tailCount_ne_zero hne (Reference.length_trailing_le data) hcnt
    · exact fun hlen => absurd ((length_trailing data).trans hlen) hne

/-- `TAILB` without bytes moves the phase (R172). -/
theorem exec_tailb_zero_of_absorb {s : State} (h : s.eng.err = .ok) (hp : s.eng.ph = .absorb) (bytes : Word) :
    exec (.tailb 0 bytes) s = .next { s with eng := { s.eng with ph := .tail } } := by
  have hb : s.eng.b ||| tailWord 0 bytes = s.eng.b := (congrArg _ (tailWord_zero bytes)).trans BitVec.or_zero
  rw [exec_tailb_of_absorb h hp, hb]

/-- Settles O22: in `TAIL` the row of the absorb commands reads `SEQ`, and `FIN` overwrites the one field that differs. -/
theorem emptyTailOnlyMovesThePhase : Obligations.EmptyTailOnlyMovesThePhase := by
  refine ⟨fun s bytes h hp => ?_, fun _ _ => byteCommands_without_empty_tailb⟩
  refine ⟨_, _, exec_tailb_zero_of_absorb h hp bytes, rfl, fun i hi => ?_, exec_fin_of_mem h (by simp), ?_⟩
  · exact exec_of_seq h (phaseTable_of_absorbs hi .tail)
  · exact exec_fin_of_mem h (by simp [hp])

/-! ## `ORW` (R175 to R178) -/

theorem exec_orw_of_absorb {s : State} (h : s.eng.err = .ok) (hp : s.eng.ph = .absorb) (c : Word) :
    exec (.orw c) s = .next { s with eng := { s.eng with b := s.eng.b ||| c, ph := .tail } } :=
  (unlessFrozen_of_ok h).trans (inPhase_of_mem (by simp [hp]))

/-- Settles O18: the mask of R170 is the number `2^(8*CNT) - 1`, and `ORW` has none. -/
theorem foldCommandsComplete : Obligations.FoldCommandsComplete := by
  intro s h hp
  refine ⟨fun cnt bytes => ?_, exec_orw_of_absorb h hp⟩
  rw [exec_tailb_of_absorb h hp, tailWord, tailMask_eq]

/-- Settles O23: the fold keeps every bit of the operand and leaves `TAIL`, where `FIN` runs the postamble on b. -/
theorem orwDoesNotMask : Obligations.OrwDoesNotMask := by
  intro s c h hp
  refine ⟨_, exec_orw_of_absorb h hp c, h, rfl, BitVec.extractLsb'_or, ?_, ?_, ?_⟩
  · exact ⟨_, exec_fin_of_mem h (by simp), h, rfl⟩
  · intro hb hc
    exact (congrArg₂ (· ||| ·) hb hc).trans (by decide)
  · rintro rfl
    exact BitVec.or_allOnes

/-- An operand that fits in `CNT` lanes is folded alike by both commands, in every state (R178). -/
theorem exec_orw_eq_tailb {cnt : BitVec 3} {c : Word} (h : c.toNat < 2 ^ (8 * cnt.toNat)) (s : State) :
    exec (.orw c) s = exec (.tailb cnt c) s :=
  congrArg (foldIntoB · s) (tailWord_of_lt h).symm

/-- Settles O24: operands that fit pass the mask, and after a fold the row of both commands reads `SEQ`. -/
theorem orwAndTailbMeet : Obligations.OrwAndTailbMeet := by
  refine ⟨fun s c hc => exec_orw_eq_tailb hc s, fun s c hc => exec_orw_eq_tailb hc s, fun s i h hp hi => ?_,
    fun s c h hp hs hc => ?_⟩
  · have hlegal : phaseTable i s.eng.ph = .goesTo .tail := by rw [phaseTable_of_folds hi, hp]; rfl
    have hph : (effect i s.eng).ph = .tail := effect_ph_of_goesTo hlegal
    have herr : (effect i s.eng).err = .ok := effect_err_of_ok h i
    refine ⟨_, exec_of_goesTo h hlegal, hph, herr, fun j hj => exec_of_seq herr ?_⟩
    rw [phaseTable_of_folds hj, hph]
    rfl
  · have htail := exec_tailb_of_engineInv h hp hs 7 c
    rwa [← exec_orw_eq_tailb hc, tailWord_of_lt hc] at htail

end Sys2Proof.Machine
end

section
/-! Finalisation and discard (R185 to R190): the postamble written out, `FIN` straight after `INIT`, and `CLR` as the way
back to the reset state. -/

namespace Sys2Proof

/-! ## Ill-formed words of the opcode of `CLR` (R94) -/

/-- Every word of the opcode of `CLR` but the one has an MBZ bit set. -/
theorem decode_of_ne_encode_clr {w : CmdWord} (ho : opField w = 0x09) (hw : w ≠ encode .clr) :
    decode w = .error (.fieldNotZero .clr) := by
  have hno : decode w ≠ .ok .clr := mt decode_eq_clr_iff.mp hw
  rw [decode_clr ho] at hno ⊢
  split at hno
  · exact absurd rfl hno
  · next hfields => exact if_neg hfields

end Sys2Proof

namespace Sys2Proof.Machine

/-! ## `CLR` (R190) -/

/-- Unfrozen and in `IDLE`, the invariant leaves the reset state alone (R26, R34). -/
theorem EngineInv.eq_zero_of_idle {e : Engine} (h : EngineInv e) (hp : e.ph = .idle) (he : e.err = .ok) :
    e = Engine.zero := by
  obtain ⟨hidle, _, hdg, _⟩ := h
  obtain ⟨hv, hb⟩ := hidle hp
  have hdg : e.dg = 0 := hdg (by simp [hp])
  cases e
  cases hv; cases hb; cases hdg; cases hp; cases he
  rfl

/-- A word of the opcode of `CLR` with an MBZ bit set does not clear. -/
theorem acceptWord_of_ne_encode_clr {w : CmdWord} (ho : opField w = 0x09) (hw : w ≠ encode .clr) (s : State) :
    acceptWord w s = .next (if s.eng.err = .ok then { s with eng := { s.eng with err := .illegal } } else s) := by
  rw [acceptWord_of_error (decode_of_ne_encode_clr ho hw), illegalWord_eq, apply_ite Host.Outcome.next]

/-- Settles O27: `CLR` discards the state in every phase, and one word alone is `CLR`. -/
theorem clrCompletes : Obligations.ClrCompletes := by
  rw [Obligations.ClrCompletes, ← encode_clr]
  refine ⟨exec_clr, acceptWord_encode .clr, fun s w ho hw => acceptWord_of_ne_encode_clr ho hw s,
    fun s he hp hs => ?_, fun s t h => ?_⟩
  · rw [exec_clr, ← hs.eq_zero_of_idle hp he]
  · rw [exec_clr] at h
    cases h
    exact ⟨rfl, congrArg Outputs.dvalid outputs_zero, congrArg Outputs.fault outputs_zero,
      congrArg Outputs.dout outputs_zero⟩

/-! ## `FIN` (R185 to R187) -/

/-- Settles O25: the first two rounds and the injections around them are `Compress(b)` (R186). -/
theorem finCompletes : Obligations.FinCompletes := fun _ h hp =>
  exec_fin_of_mem h (by simpa using hp)

/-- `FIN` straight from `ABSORB`: the postamble on the state of the preamble (R187). -/
theorem runWords_init_fin {s : State} (h : s.eng.err = .ok) (len : Word) (key : BitVec 128) :
    runWords (programWords [.init 16 len key, .fin]) s = .next { s with eng := finEngine (initEngine len key s.eng) } := by
  have hfin := exec_fin_of_mem (s := { s with eng := initEngine len key s.eng }) h (List.mem_cons_self ..)
  rw [runWords_programWords_cons (exec_init_of_ok h len key), runWords_programWords_cons hfin]
  rfl

/-- The three stages of the example of R185: `Compress(b)`, `0xff` into v2, four rounds. -/
theorem finalPerm_example :
    finalPerm 0x0f0e0d0c0b0a0908 ⟨0xe6c6568ed87e2577, 0x2e66619568d7bba6, 0xaef47c2e7611d400, 0x74f9432f37099cf8⟩ =
      ⟨0x31e4872797bd4ad7, 0xdd35c539dbfe5026, 0x8a7441931489a043, 0xf0f9ab59c621b5a6⟩ := by
  have hcompress : compress 0x0f0e0d0c0b0a0908
      ⟨0xe6c6568ed87e2577, 0x2e66619568d7bba6, 0xaef47c2e7611d400, 0x74f9432f37099cf8⟩ =
        ⟨0x510ac390aecfe0e8, 0x899d78733ef35078, 0x7b3fd5ab177a8a02, 0xb07ee8d7763a0258⟩ := by decide
  have hinject : xorV2 0xff ⟨0x510ac390aecfe0e8, 0x899d78733ef35078, 0x7b3fd5ab177a8a02, 0xb07ee8d7763a0258⟩ =
      ⟨0x510ac390aecfe0e8, 0x899d78733ef35078, 0x7b3fd5ab177a8afd, 0xb07ee8d7763a0258⟩ := by decide
  rw [finalPerm, hcompress, hinject]
  decide

/-- The digest of the empty input under the key `00 01 .. 0f` (R187). -/
theorem finEngine_dg_of_empty_input (e : Engine) :
    (finEngine (initEngine 0 0x0f0e0d0c0b0a09080706050403020100 e)).dg = 0x48dd3a16b9a440c3 := by
  rw [finEngine_dg, initEngine_v, initEngine_b]
  decide

/-- After `FIN` the digest is on the port and `STATUS` shows `DONE` without error (R29, R56). -/
theorem outputs_finEngine {e : Engine} (h : e.err = .ok) :
    outputs (finEngine e) = { dout := bswap64 (finEngine e).dg, dvalid := true, status := 3, fault := false } := by
  have hvalid : dvalid (finEngine e) = true := (dvalid_eq_true_iff _).mpr ⟨rfl, h⟩
  simp [outputs, dout_of_dvalid hvalid, hvalid, statusWord, faultLine, h, phaseCode, errCode]

/-- Settles O26: both examples are runs of the postamble, from `TAIL` and straight from `ABSORB`. -/
theorem finWorkedExample : Obligations.FinWorkedExample := by
  have hwords : [0x011000000000000000000f0e0d0c0b0a09080706050403020100#208,
      0x0700000000000000000000000000000000000000000000000000#208] =
        programWords [.init 16 0 0x0f0e0d0c0b0a09080706050403020100, .fin] := by decide
  rw [Obligations.FinWorkedExample, hwords]
  refine ⟨⟨_, exec_fin_of_mem rfl (by decide), finalPerm_example, ?_, ?_⟩,
    ⟨_, runWords_init_fin rfl _ _, finEngine_dg_of_empty_input _⟩⟩
  · rw [finEngine_dg, finalPerm_example]
    decide
  · rw [outputs_finEngine rfl, finEngine_dg, finalPerm_example]
    decide

end Sys2Proof.Machine
end

section
/-! The 32-bit tuple forms (R205, R206) and the driver's reduction of wide integers (R208): the byte string of a 32-bit form
ends in one four-byte `TAILB`, in whose place the form has an `ORW` of the same integer. -/

namespace Sys2Proof.Machine

/-! ## Wide 64-bit arguments (R208) -/

/-- A 64-bit argument counts modulo 2^64. -/
theorem wordCommand_mod (a : Nat) : wordCommand (a % 2 ^ 64) = wordCommand a :=
  congrArg Instr.absw (BitVec.eq_of_toNat_eq (by simp))

/-- Settles O51: every argument reaches its form through `wordCommand`. -/
theorem wideIntegersAreReduced : Obligations.WideIntegersAreReduced := by
  intro key a b c d
  simp only [digest1x64Program, digest2x64Program, digest3x64Program, digest4x64Program, wordCommand_mod, and_self]

/-! ## The bytes of a 32-bit integer -/

@[simp] theorem length_le32Bytes (c : BitVec 32) : (le32Bytes c).length = 4 := rfl

theorem getD_le32Bytes (c : BitVec 32) {i : Nat} (hi : i < 4) : (le32Bytes c).getD i 0 = lane c i := by
  simp [le32Bytes, List.getD_eq_getElem?_getD, hi]

/-- The lanes of the encoding of an integer carry the integer, zero-extended. -/
theorem laneField_le32Bytes (c : BitVec 32) : laneField 64 (le32Bytes c) = c.setWidth 64 := by
  apply BitVec.eq_of_getLsbD_eq
  intro i hi
  rw [getLsbD_laneField, BitVec.getLsbD_setWidth]
  by_cases hbyte : i / 8 < 4
  · rw [getD_le32Bytes c hbyte, getLsbD_lane, Nat.div_add_mod]
    simp [Nat.mod_lt]
  · rw [List.getD_eq_default _ _ (by rw [length_le32Bytes]; omega), BitVec.getLsbD_of_ge c i (by omega)]
    simp

/-! ## The commands of byte strings with a four-byte tail (R200) -/

/-- The first full chunk of a byte string is absorbed first. -/
theorem byteCommands_append {chunk : List Byte} (h : chunk.length = 8) (bs : List Byte) :
    byteCommands (chunk ++ bs) = .absb (laneField 64 chunk) :: byteCommands bs := by
  have hlen : (chunk ++ bs).length / 8 = bs.length / 8 + 1 := by rw [List.length_append]; omega
  have htail : (chunk ++ bs).drop (8 * (bs.length / 8 + 1)) = bs.drop (8 * (bs.length / 8)) := by
    rw [Nat.mul_succ, Nat.add_comm, ← List.drop_drop, List.drop_left' h]
  rw [byteCommands, hlen, chunkCommands_succ, List.take_left' h, List.drop_left' h, htail]
  rfl

/-- The bytes of one 32-bit integer are a tail of four bytes, with no full chunk before it. -/
theorem byteCommands_le32Bytes (c : BitVec 32) : byteCommands (le32Bytes c) = [.tailb 4 (c.setWidth 64)] := by
  have hchunks : (le32Bytes c).length / 8 = 0 := by rw [length_le32Bytes]
  have htail : tailCommands (le32Bytes c) = [.tailb 4 (laneField 64 (le32Bytes c))] := if_neg (by simp)
  rw [byteCommands, hchunks, ← laneField_le32Bytes]
  exact htail

/-- The byte form of one integer. -/
theorem digestProgram_le32Bytes (key : List Byte) (a : BitVec 32) :
    digestProgram key (le32Bytes a) = computation key 4 [.tailb 4 (a.setWidth 64)] := by
  rw [digestProgram, byteCommands_le32Bytes, length_le32Bytes]

/-- The byte form of three integers: the pair as one full chunk, the third integer as the tail. -/
theorem digestProgram_le32Bytes_append (key : List Byte) (a b c : BitVec 32) :
    digestProgram key (le32Bytes a ++ le32Bytes b ++ le32Bytes c) =
      computation key 12 [.absb (blockOfPair a b), .tailb 4 (c.setWidth 64)] := by
  rw [digestProgram, byteCommands_append rfl, byteCommands_le32Bytes, laneField_le32Bytes_append]
  rfl

/-! ## The programs of the 32-bit forms -/

theorem digest1x32Program_eq_none_iff {key : List Byte} {a : Nat} : digest1x32Program key a = none ↔ 2 ^ 64 ≤ a := by
  simp [digest1x32Program]

theorem digest3x32Program_eq_none_iff {key : List Byte} {a b c : Nat} :
    digest3x32Program key a b c = none ↔ 2 ^ 32 ≤ a ∨ 2 ^ 32 ≤ b ∨ 2 ^ 64 ≤ c := by
  rw [digest3x32Program]
  split <;> simp <;> omega

section
variable (key : List Byte) (a b c : BitVec 32)

/-- An operand that fits is passed zero-extended. -/
theorem digest1x32Program_eq : digest1x32Program key a.toNat = some (computation key 4 [.orw (a.setWidth 64)]) := by
  rw [digest1x32Program, if_pos (by omega), BitVec.ofNat_toNat]

theorem digest3x32Program_eq : digest3x32Program key a.toNat b.toNat c.toNat =
    some (computation key 12 [.absp a b, .orw (c.setWidth 64)]) := by
  rw [digest3x32Program, if_pos (by omega), BitVec.ofNat_toNat, BitVec.ofNat_toNat, BitVec.ofNat_toNat,
    BitVec.setWidth_eq, BitVec.setWidth_eq]

end

/-! ## The 32-bit forms run as the byte form -/

/-- A 32-bit integer fits in four lanes, so folding it with `ORW` or as four trailing bytes is the same (R178). -/
theorem exec_orw_setWidth (c : BitVec 32) (s : State) :
    exec (.orw (c.setWidth 64)) s = exec (.tailb 4 (c.setWidth 64)) s := by
  refine exec_orw_eq_tailb ?_ s
  rw [BitVec.toNat_setWidth_of_le (by decide)]
  exact c.isLt

/-- `digest_1x32` does in every state, with every key, what the byte form of its operand's encoding does. -/
theorem runWords_digest1x32 (key : List Byte) (a : BitVec 32) (s : State) :
    runWords (programWords (computation key 4 [.orw (a.setWidth 64)])) s =
      runWords (programWords (digestProgram key (le32Bytes a))) s := by
  rw [digestProgram_le32Bytes]
  have hfold := runWords_programWords_cons_congr (exec_orw_setWidth a) (is := [.fin]) fun _ => rfl
  exact runWords_programWords_cons_congr (fun _ => rfl) hfold s

/-- `digest_3x32` does in every state, with every key, what the byte form of its operands' encodings does. -/
theorem runWords_digest3x32 (key : List Byte) (a b c : BitVec 32) (s : State) :
    runWords (programWords (computation key 12 [.absp a b, .orw (c.setWidth 64)])) s =
      runWords (programWords (digestProgram key (le32Bytes a ++ le32Bytes b ++ le32Bytes c))) s := by
  rw [digestProgram_le32Bytes_append]
  have hfold := runWords_programWords_cons_congr (exec_orw_setWidth c) (is := [.fin]) fun _ => rfl
  have habsorb := runWords_programWords_cons_congr (exec_absp_eq_absb a b) hfold
  exact runWords_programWords_cons_congr (fun _ => rfl) habsorb s

/-- Settles O50: each form runs as the byte form of its operands' encodings, whose digest O48's run gives. -/
theorem thirtyTwoBitFormsEqualTheByteForm : Obligations.ThirtyTwoBitFormsEqualTheByteForm := by
  refine ⟨fun s key a b c h hk => ?_, fun _ _ _ _ => digest3x32Program_eq_none_iff.mpr,
    fun _ _ => digest1x32Program_eq_none_iff.mpr⟩
  exact ⟨_, _, _, _, digest1x32Program_eq key a, digest3x32Program_eq key a b c,
    (runWords_digest1x32 key a s).trans (runWords_digestProgram _ h hk),
    (runWords_digest3x32 key a b c s).trans (runWords_digestProgram _ h hk),
    driverResult_digestEngine key _, driverResult_digestEngine key _⟩

end Sys2Proof.Machine
end

section
/-! Errors (R221 to R228): which words raise which error in an engine that is not frozen, what error entry leaves, and what a
frozen engine does with a word. -/

namespace Sys2Proof.Machine

/-! ## The causes of `SequenceError` and `InvalidKeyLength` (R222, R223) -/

/-- An entry of a row of R96 is `SEQ` outside the row's phases. -/
theorem within_eq_seq_iff {legal : List Phase} {p next : Phase} : Legality.within legal p next = .seq ↔ p ∉ legal := by
  rw [Legality.within]
  split
  · next hp => exact iff_of_false nofun (not_not.mpr hp)
  · next hp => exact iff_of_true rfl hp

/-- The commands that R222 allows in `ABSORB` alone. -/
theorem within_absorb_eq_seq_iff {p next : Phase} :
    Legality.within [.absorb] p next = .seq ↔ p ∈ [Phase.idle, .tail, .done] := by
  rw [within_eq_seq_iff]
  cases p <;> decide

/-- `FIN`, which R222 allows in `TAIL` as well. -/
theorem within_absorb_tail_eq_seq_iff {p next : Phase} :
    Legality.within [.absorb, .tail] p next = .seq ↔ p ∈ [Phase.idle, .done] := by
  rw [within_eq_seq_iff]
  cases p <;> decide

/-- The opcodes that are out of phase, and where (R222). -/
def OutOfPhase (op : Byte) (p : Phase) : Prop :=
  op ∈ [0x02, 0x03, 0x04, 0x05, 0x06, 0x08] ∧ p ∈ [Phase.idle, .tail, .done] ∨ op = 0x07 ∧ p ∈ [Phase.idle, .done]

theorem outOfPhase_of_absorb_only {op : Byte} (h : op ∈ [0x02, 0x03, 0x04, 0x05, 0x06, 0x08]) (p : Phase) :
    OutOfPhase op p ↔ p ∈ [Phase.idle, .tail, .done] := by
  have hfin : op ≠ 0x07 := by rintro rfl; revert h; decide
  simp only [OutOfPhase, h, hfin, true_and, false_and, or_false]

theorem outOfPhase_fin (p : Phase) : OutOfPhase 0x07 p ↔ p ∈ [Phase.idle, .done] :=
  ⟨fun h => h.elim (fun h => absurd h.1 (by decide)) And.right, fun h => .inr ⟨rfl, h⟩⟩

theorem not_outOfPhase {op : Byte} (h : op ∉ [0x02, 0x03, 0x04, 0x05, 0x06, 0x08]) (hfin : op ≠ 0x07) (p : Phase) :
    ¬ OutOfPhase op p := fun ho => ho.elim (fun ho => h ho.1) (fun ho => hfin ho.1)

/-- The phase table answers `SEQ` where R222 lists the command. -/
theorem phaseTable_eq_seq_iff (i : Instr) (p : Phase) : phaseTable i p = .seq ↔ OutOfPhase i.mnemonic.opcode p := by
  have habsorb {next : Phase} {op : Byte} (h : op ∈ [0x02, 0x03, 0x04, 0x05, 0x06, 0x08]) :
      Legality.within [.absorb] p next = .seq ↔ OutOfPhase op p :=
    within_absorb_eq_seq_iff.trans (outOfPhase_of_absorb_only h p).symm
  cases i with
  | init klen len key =>
    exact iff_of_false (fun h => mnemonic_ne_init_of_seq h rfl)
      (not_outOfPhase (op := 0x01) (by decide) (by decide) p)
  | clr => exact iff_of_false nofun (not_outOfPhase (by decide) (by decide) p)
  | fin => exact within_absorb_tail_eq_seq_iff.trans (outOfPhase_fin p).symm
  | _ => exact habsorb (by simp [Instr.mnemonic, Mnemonic.opcode])

/-- The opcode alone says that a well-formed word is an `INIT`. -/
theorem opField_eq_init_iff {w : CmdWord} {i : Instr} (hd : decode w = .ok i) :
    opField w = 0x01 ↔ i.mnemonic = .init := by
  rw [opField_of_decode hd]
  exact mnemonic_opcode_injective.eq_iff (b := .init)

/-! ## The error an accepted word raises (R221 to R223) -/

/-- The error of an entry of R96. -/
def errorOf : Legality → ErrCode
  | .goesTo _ => .ok
  | .seq => .sequence
  | .keyLength => .keylen

theorem errorOf_eq_sequence_iff (l : Legality) : errorOf l = .sequence ↔ l = .seq := by cases l <;> simp [errorOf]

theorem errorOf_eq_keylen_iff (l : Legality) : errorOf l = .keylen ↔ l = .keyLength := by cases l <;> simp [errorOf]

theorem errorOf_ne_illegal (l : Legality) : errorOf l ≠ .illegal := by cases l <;> nofun

/-- The error that a command raises in an unfrozen engine is that of its entry in the table; a command that raises one
writes it and nothing else (R226). -/
theorem Executes.raises {i : Instr} {s t : State} (h : Executes i s t) (he : s.eng.err = .ok) :
    t.eng.err = errorOf (phaseTable i s.eng.ph) ∧
      (t.eng.err ≠ .ok → t = { s with eng := { s.eng with err := t.eng.err } }) := by
  cases h with
  | ignored hfrozen _ => exact absurd he hfrozen
  | completes _ hp =>
    have hok : (effect i s.eng).err = .ok := effect_err_of_ok he i
    rw [hp]
    exact ⟨hok, fun hne => absurd hok hne⟩
  | outOfPhase _ hp => rw [hp]; exact ⟨rfl, fun _ => rfl⟩
  | wrongKeyLength _ hp => rw [hp]; exact ⟨rfl, fun _ => rfl⟩

/-- Error entry: a word that raises an error in an unfrozen engine writes `err` and nothing else (R226). -/
theorem acceptWord_of_raises {w : CmdWord} {s t : State} (he : s.eng.err = .ok) (h : acceptWord w s = .next t)
    (hne : t.eng.err ≠ .ok) : t = { s with eng := { s.eng with err := t.eng.err } } := by
  rcases acceptWord_cases h with ⟨i, _, hexec⟩ | ⟨_, _, hfrozen, _⟩ | ⟨_, _, _, rfl⟩
  · obtain ⟨_, hlatch⟩ := hexec.raises he
    exact hlatch hne
  · exact absurd he hfrozen
  · rfl

/-- What an error shows on the outputs (R226). -/
theorem outputs_of_err_ne {e : Engine} (h : e.err ≠ .ok) : faultLine e = true ∧
    (statusWord e).extractLsb' 2 2 = errCode e.err ∧ dvalid e = false ∧ dout e = 0 :=
  ⟨(faultLine_eq_true_iff e).mpr h, statusWord_high e, dvalid_of_err_ne h, dout_of_not_dvalid (dvalid_of_err_ne h)⟩

/-- A well-formed word raises an error by the phase table, an ill-formed one is `IllegalCommand`. -/
theorem acceptWord_err_cases {w : CmdWord} {s t : State} (he : s.eng.err = .ok) (h : acceptWord w s = .next t) :
    (∃ i, decode w = .ok i ∧ t.eng.err = errorOf (phaseTable i s.eng.ph)) ∨
      (∃ r, decode w = .error r ∧ t.eng.err = .illegal) := by
  rcases acceptWord_cases h with ⟨i, hd, hexec⟩ | ⟨_, _, hfrozen, _⟩ | ⟨r, hd, _, rfl⟩
  · obtain ⟨herr, _⟩ := hexec.raises he
    exact .inl ⟨i, hd, herr⟩
  · exact absurd he hfrozen
  · exact .inr ⟨r, hd, rfl⟩

/-- An ill-formed word does not have the opcode of `INIT`, which has no MBZ field (R85). -/
theorem opField_ne_init_of_error {w : CmdWord} {r : DecodeError} (hd : decode w = .error r) : opField w ≠ 0x01 :=
  fun ho => nomatch (decode_init ho).symm.trans hd

/-- Settles O29: a well-formed word meets its entry in the table of R96, an ill-formed one is `IllegalCommand`. -/
theorem errorsHaveExactlyTheirCauses : Obligations.ErrorsHaveExactlyTheirCauses := by
  intro w s t he h
  have hentry (hne : t.eng.err ≠ .ok) := And.intro (acceptWord_of_raises he h hne) (outputs_of_err_ne hne)
  rcases acceptWord_err_cases he h with ⟨i, hd, herr⟩ | ⟨r, hd, herr⟩
  · have hwf : wellFormed w = true := (wellFormed_iff_exists_decode w).mpr ⟨i, hd⟩
    refine ⟨?_, ?_, ?_, hentry⟩
    · exact iff_of_false (herr ▸ errorOf_ne_illegal _) (by simp [hwf])
    · rw [herr, errorOf_eq_sequence_iff, phaseTable_eq_seq_iff, opField_of_decode hd]
      exact (and_iff_right hwf).symm
    · rw [herr, errorOf_eq_keylen_iff, phaseTable_eq_keyLength_iff hd, opField_eq_init_iff hd]
  · have hwf : wellFormed w = false := (wellFormed_eq_false_iff w).mpr ⟨r, hd⟩
    refine ⟨iff_of_true herr hwf, ?_, ?_, hentry⟩
    · exact iff_of_false (by simp [herr]) (by simp [hwf])
    · exact iff_of_false (by simp [herr]) fun hinit => opField_ne_init_of_error hd hinit.1

/-! ## The frozen engine (R227, R228) -/

/-- A frozen engine consumes every word, and is only moved by that of `CLR`. -/
theorem acceptWord_eq_next_of_frozen {s : State} (he : s.eng.err ≠ .ok) (w : CmdWord) :
    acceptWord w s = .next { s with eng := if w = encode .clr then Engine.zero else s.eng } := by
  rw [acceptWord_eq_of_frozen he]
  split
  · exact exec_clr s
  · rfl

/-- Settles O30: at an edge the ready engine takes its latency from the state before, and then accepts the word. -/
theorem frozenEngineObeysOnlyClr : Obligations.FrozenEngineObeysOnlyClr := by
  intro w s he
  rw [← encode_clr]
  refine ⟨acceptWord_eq_next_of_frozen he w, fun rest hb hp => ?_⟩
  rw [step_of_valid hp hb]
  exact acceptWord_eq_next_of_frozen (s := { s with port := rest, busy := latencyOf w s }) he w

end Sys2Proof.Machine
end

section
/-! Reset and time (R260, R273): what an active `rst` leaves, and which entry of the latency table a word takes. -/

namespace Sys2Proof.Machine

/-! ## Reset (R260) -/

/-- A reset takes only its own event from the port, whether or not a command is in progress. -/
theorem step_of_reset {s : State} {rest : List PortEvent} (hp : s.port = .reset :: rest) :
    step s = .next { s with port := rest, busy := 0, eng := Engine.zero } := by
  rw [step, portStep, hp]
  rfl

/-- A ready engine shows its outputs (R72). -/
theorem sample_of_ready {s : State} (hb : s.busy = 0) : sample s = some (outputs s.eng) :=
  if_pos ((cmdReady_eq_true_iff s).mpr hb)

/-- Settles O37: the reset state is ready, its outputs are those of the zero engine, and `CLR` leaves the same engine. -/
theorem resetFromAnyState : Obligations.ResetFromAnyState := by
  intro s rest hp
  refine ⟨_, step_of_reset hp, rfl, (cmdReady_eq_true_iff _).mpr rfl, ?_, rfl, _, exec_clr s, rfl⟩
  rw [sample_of_ready rfl, outputs_zero]

/-! ## The entry of the latency table (R273) -/

/-- A command that is obeyed takes the entry of its opcode; a frozen engine obeys `CLR` alone. -/
theorem latencyOf_of_obeyed {w : CmdWord} {i : Instr} (hd : decode w = .ok i) {s : State}
    (h : s.eng.err = .ok ∨ i = .clr) : latencyOf w s = s.lat.extra i.mnemonic := by
  simp only [latencyOf, hd]
  exact if_pos h

/-- A frozen engine takes one time over every word that it does not obey. -/
theorem latencyOf_of_frozen {w : CmdWord} {s : State} (he : s.eng.err ≠ .ok) (hw : w ≠ encode .clr) :
    latencyOf w s = s.lat.refused := by
  rcases hd : decode w with r | i
  · exact latencyOf_of_error hd s
  · have hi : i ≠ .clr := fun hclr => hw (decode_eq_clr_iff.mp (hclr ▸ hd))
    simp only [latencyOf, hd]
    exact if_neg (not_or.mpr ⟨he, hi⟩)

/-- The opcode field names the command of a word that decodes (R84). -/
theorem mnemonic_eq_of_opField_eq {w w' : CmdWord} {i i' : Instr} (hd : decode w = .ok i) (hd' : decode w' = .ok i')
    (h : opField w = opField w') : i.mnemonic = i'.mnemonic :=
  mnemonic_opcode_injective (by rw [← opField_of_decode hd, h, opField_of_decode hd'])

/-- Settles O41: two obeyed words of one opcode take the same entry; a word is refused as ill-formed or by a frozen
engine. -/
theorem latencyIgnoresData : Obligations.LatencyIgnoresData := by
  refine ⟨fun w w' s s' hlat he he' hw hw' hop => ?_, fun w s h => ?_⟩
  · obtain ⟨i, hd⟩ := (wellFormed_iff_exists_decode w).mp hw
    obtain ⟨i', hd'⟩ := (wellFormed_iff_exists_decode w').mp hw'
    rw [latencyOf_of_obeyed hd (.inl he), latencyOf_of_obeyed hd' (.inl he'), hlat,
      mnemonic_eq_of_opField_eq hd hd' hop]
  · rw [← encode_clr] at h
    rcases h with hill | ⟨he, hw⟩
    · obtain ⟨r, hd⟩ := (wellFormed_eq_false_iff w).mp hill
      exact latencyOf_of_error hd s
    · exact latencyOf_of_frozen he hw

end Sys2Proof.Machine
end
